-- ==== Sys2Proof/Word.lean ====
section
/-! DEFINITION. The widths of MBSC's values (00_scope.md R7): bytes of 8 bits, CRC accumulators of 16 bits,
command and response words of 32 bits, the response's value field of 24 bits. Indices, offsets, lengths and `SIZE`
are natural numbers (10_state.md R11) and have no type of their own. -/

namespace Sys2Proof

/-- A byte, an unsigned value 0 to 255 (R7). -/
abbrev Byte := BitVec 8

/-- A CRC accumulator or result: `CRC_WIDTH` = 16 bits (R6). -/
abbrev Crc := BitVec 16

/-- A command word (30_encoding.md R54). -/
abbrev CmdWord := BitVec 32

/-- The `val` field of a response word (R58). -/
abbrev Val := BitVec 24

/-- A response word (R58). -/
abbrev RspWord := BitVec 32

end Sys2Proof
end

