-- ==== Sys2Proof/Config.lean ====
section
/-! DEFINITION. The parameters of MBSC, with the value this hardware takes (00_scope.md R6). They are fixed at build
time and are not state (10_state.md R18). `CRC_XOROUT` is "none", so it has no constant. The palette of the external
colour registry has no value in the spec (91_not_in_source.md N12): it is an argument of `Registry.colorFor`. -/

namespace Sys2Proof.Config

/-- `CAPACITY`: how many bytes the frame buffer holds; 256 for this hardware, 1 to 4095 admissible (R6). -/
def capacity : Nat := 256

/-- `CRC_POLY`: the XOR constant of one CRC iteration (R6). -/
def crcPoly : Crc := 0xA001#16

/-- `CRC_INIT`: the accumulator before the first byte (R6). -/
def crcInit : Crc := 0xFFFF#16

/-- `FC_MASK`: "masked to 7 bits" (R6, R51). -/
def fcMask : Byte := 0x7F#8

/-- `FC_ALLOW`: the allow-list of function codes, 3 (read), 6 (write single), 22 (mask write) (R6, R52). -/
def fcAllow : List Byte := [3#8, 6#8, 22#8]

/-- `TIMEOUT_MS`: a parameter of the host, not of the block (R6, R163). -/
def timeoutMs : Nat := 1000

/-- How many values a 12-bit operand field has (R54: "a natural 0 to 4095"). -/
def operandLimit : Nat := 4096

end Sys2Proof.Config
end

