-- ==== Sys2Proof/Syntax.lean ====
section
/-! DEFINITION. The fifteen commands of MBSC (30_encoding.md R56), one constructor per row of
spec/opcode_table.json. A byte operand has its 8 bits (R55); an offset, length, index or count operand is a natural
number, whose range 0 to 4095 is checked by `Instr.wf` (entry 7). -/

namespace Sys2Proof

/-- A decoded command. -/
inductive Instr where
  /-- NOP (R150). -/
  | nop
  /-- STATUS (R151). -/
  | status
  /-- SRST (R152). -/
  | srst
  /-- CRC.INIT (R86). -/
  | crcInit
  /-- CRC.BYTE byte (R87). -/
  | crcByte (byte : Byte)
  /-- CRC.READ (R88). -/
  | crcRead
  /-- CRC.EMIT (R89). -/
  | crcEmit
  /-- CRC.RANGE off, len (R90). -/
  | crcRange (off len : Nat)
  /-- BUF.PUSH byte (R100). -/
  | bufPush (byte : Byte)
  /-- BUF.COMPACT from (R101). -/
  | bufCompact (start : Nat)
  /-- BUF.RESET (R102). -/
  | bufReset
  /-- BUF.READ idx (R103). -/
  | bufRead (idx : Nat)
  /-- SYNC.SCAN (R121). -/
  | syncScan
  /-- SYNC.EVICT (R130). -/
  | syncEvict
  /-- SYNC.FLUSH (R131). -/
  | syncFlush
deriving DecidableEq, Repr

end Sys2Proof
end

