-- ==== Sys2Proof/WellFormed.lean ====
section
/-! DEFINITION. Which commands a command word can carry: every natural operand fits its 12-bit field
(30_encoding.md R54, R55). -/

namespace Sys2Proof

/-- The operand fits a 12-bit field: "a natural 0 to 4095" (R54). -/
def fitsField (n : Nat) : Bool := decide (n < Config.operandLimit)

/-- The command has an encoding. -/
def Instr.wf : Instr → Bool
  | .nop => true
  | .status => true
  | .srst => true
  | .crcInit => true
  | .crcByte _ => true
  | .crcRead => true
  | .crcEmit => true
  | .crcRange off len => fitsField off && fitsField len
  | .bufPush _ => true
  | .bufCompact start => fitsField start
  | .bufReset => true
  | .bufRead idx => fitsField idx
  | .syncScan => true
  | .syncEvict => true
  | .syncFlush => true

end Sys2Proof
end

