-- ==== Sys2Proof/Decode.lean ====
section
/-! DEFINITION. The command word (30_encoding.md R54 to R57): its three fields, the command table, the decoder, total
on all 32-bit words, and the encoder, written from the same table. A command word is one 32-bit value; the spec has
no ports and gives it no byte order (entry 8). -/

namespace Sys2Proof

/-! ## Fields (R54, R55) -/

/-- `op`, bits 31:24. -/
def opField (w : CmdWord) : BitVec 8 := w.extractLsb' 24 8

/-- `a`, bits 23:12, as the natural it stands for. -/
def aField (w : CmdWord) : Nat := (w.extractLsb' 12 12).toNat

/-- `b`, bits 11:0, as the natural it stands for. -/
def bField (w : CmdWord) : Nat := (w.extractLsb' 0 12).toNat

/-- A byte operand, `b[7:0]`. -/
def byteField (w : CmdWord) : Byte := w.extractLsb' 0 8

/-! ## The command table (R56) -/

/-- The rows of the command table. -/
inductive Opcode where
  | nop | status | srst
  | crcInit | crcByte | crcRead | crcEmit | crcRange
  | bufPush | bufCompact | bufReset | bufRead
  | syncScan | syncEvict | syncFlush
deriving DecidableEq, Repr

/-- The table's rows in its order. -/
def opcodeTable : List Opcode :=
  [.nop, .status, .srst, .crcInit, .crcByte, .crcRead, .crcEmit, .crcRange,
   .bufPush, .bufCompact, .bufReset, .bufRead, .syncScan, .syncEvict, .syncFlush]

/-- The row's `op` byte (R56). -/
def Opcode.code : Opcode → BitVec 8
  | .nop => 0x00#8
  | .status => 0x01#8
  | .srst => 0x02#8
  | .crcInit => 0x10#8
  | .crcByte => 0x11#8
  | .crcRead => 0x12#8
  | .crcEmit => 0x13#8
  | .crcRange => 0x14#8
  | .bufPush => 0x20#8
  | .bufCompact => 0x21#8
  | .bufReset => 0x22#8
  | .bufRead => 0x23#8
  | .syncScan => 0x30#8
  | .syncEvict => 0x31#8
  | .syncFlush => 0x32#8

/-- The row's `match` word (R56). -/
def Opcode.pattern : Opcode → CmdWord
  | .nop => 0x00000000#32
  | .status => 0x01000000#32
  | .srst => 0x02000000#32
  | .crcInit => 0x10000000#32
  | .crcByte => 0x11000000#32
  | .crcRead => 0x12000000#32
  | .crcEmit => 0x13000000#32
  | .crcRange => 0x14000000#32
  | .bufPush => 0x20000000#32
  | .bufCompact => 0x21000000#32
  | .bufReset => 0x22000000#32
  | .bufRead => 0x23000000#32
  | .syncScan => 0x30000000#32
  | .syncEvict => 0x31000000#32
  | .syncFlush => 0x32000000#32

/-- The row's `mask` word (R56). -/
def Opcode.mask : Opcode → CmdWord
  | .nop => 0xFFFFFFFF#32
  | .status => 0xFFFFFFFF#32
  | .srst => 0xFFFFFFFF#32
  | .crcInit => 0xFFFFFFFF#32
  | .crcByte => 0xFFFFFF00#32
  | .crcRead => 0xFFFFFFFF#32
  | .crcEmit => 0xFFFFFFFF#32
  | .crcRange => 0xFF000000#32
  | .bufPush => 0xFFFFFF00#32
  | .bufCompact => 0xFFFFF000#32
  | .bufReset => 0xFFFFFFFF#32
  | .bufRead => 0xFFFFF000#32
  | .syncScan => 0xFFFFFFFF#32
  | .syncEvict => 0xFFFFFFFF#32
  | .syncFlush => 0xFFFFFFFF#32

/-- The row whose `op` is this byte; none for the 241 reserved values (R57 case 1). -/
def opcodeOf (op : BitVec 8) : Option Opcode := opcodeTable.find? fun o => o.code == op

/-- The command of a row, with the operands the word carries (R55, R56). -/
def assemble (o : Opcode) (w : CmdWord) : Instr :=
  match o with
  | .nop => .nop
  | .status => .status
  | .srst => .srst
  | .crcInit => .crcInit
  | .crcByte => .crcByte (byteField w)
  | .crcRead => .crcRead
  | .crcEmit => .crcEmit
  | .crcRange => .crcRange (aField w) (bField w)
  | .bufPush => .bufPush (byteField w)
  | .bufCompact => .bufCompact (bField w)
  | .bufReset => .bufReset
  | .bufRead => .bufRead (bField w)
  | .syncScan => .syncScan
  | .syncEvict => .syncEvict
  | .syncFlush => .syncFlush

/-! ## The decoder (R57) -/

/-- Why a word is no command (R57 cases 1 and 2). -/
inductive DecodeError where
  /-- `op` is none of the fifteen opcodes. -/
  | unknownOpcode
  /-- `op` is known and a must-be-0 bit is 1. -/
  | reservedBits
deriving DecidableEq, Repr

/-- R57: first the opcode, then the must-be-0 bits. "A decoder is total: every 32-bit word is one of the fifteen
commands, or ERR_OPCODE, or ERR_RESERVED." -/
def decode (w : CmdWord) : Except DecodeError Instr :=
  match opcodeOf (opField w) with
  | none => .error .unknownOpcode
  | some o => if w &&& o.mask = o.pattern then .ok (assemble o w) else .error .reservedBits

/-- What the decoder reads from a word numbered as spec/opcode_table.json numbers it: `nbits` bits of `w`, every
bit above them 0 (all fifteen rows have 32 bits). -/
def decodeTableWord (nbits w : Nat) : Option Instr :=
  match decode (BitVec.ofNat 32 (w % 2 ^ nbits)) with
  | .ok i => some i
  | .error _ => none

/-! ## The encoder -/

/-- The command's row. -/
def Instr.opcode : Instr → Opcode
  | .nop => .nop
  | .status => .status
  | .srst => .srst
  | .crcInit => .crcInit
  | .crcByte _ => .crcByte
  | .crcRead => .crcRead
  | .crcEmit => .crcEmit
  | .crcRange _ _ => .crcRange
  | .bufPush _ => .bufPush
  | .bufCompact _ => .bufCompact
  | .bufReset => .bufReset
  | .bufRead _ => .bufRead
  | .syncScan => .syncScan
  | .syncEvict => .syncEvict
  | .syncFlush => .syncFlush

/-- The number in field `a`; 0 where the command does not use it (R55). -/
def Instr.aOperand : Instr → Nat
  | .nop => 0
  | .status => 0
  | .srst => 0
  | .crcInit => 0
  | .crcByte _ => 0
  | .crcRead => 0
  | .crcEmit => 0
  | .crcRange off _ => off
  | .bufPush _ => 0
  | .bufCompact _ => 0
  | .bufReset => 0
  | .bufRead _ => 0
  | .syncScan => 0
  | .syncEvict => 0
  | .syncFlush => 0

/-- The number in field `b`; 0 where the command does not use it (R55). -/
def Instr.bOperand : Instr → Nat
  | .nop => 0
  | .status => 0
  | .srst => 0
  | .crcInit => 0
  | .crcByte byte => byte.toNat
  | .crcRead => 0
  | .crcEmit => 0
  | .crcRange _ len => len
  | .bufPush byte => byte.toNat
  | .bufCompact start => start
  | .bufReset => 0
  | .bufRead idx => idx
  | .syncScan => 0
  | .syncEvict => 0
  | .syncFlush => 0

/-- `{op, a, b}` as one 32-bit word (R54). -/
def packFields (op : BitVec 8) (a b : Nat) : CmdWord :=
  op ++ (BitVec.ofNat 12 a ++ BitVec.ofNat 12 b : BitVec 24)

/-- The command word of a command (R54 to R56). -/
def encode (i : Instr) : CmdWord := packFields i.opcode.code i.aOperand i.bOperand

end Sys2Proof
end

