-- ==== Sys2Proof/Machine/State.lean ====
section
/-! DEFINITION. Everything the spec gives MBSC to hold (10_state.md R10 to R22), as plain data, with its value after
reset (R20), and the reasons a step can stop. The scan's registers `S`, `I`, `SACC` (R13), the synchronizer's two
logical states (R14), the derived flags (R15) and the status word (R17) are not stored, as those rules say
(entry 5). -/

namespace Sys2Proof.Machine

/-- The role of a reported byte range (30_encoding.md R60). -/
inductive Role where
  /-- discarded-noise, role 0. -/
  | noise
  /-- confirmed-frame, role 1. -/
  | frame
deriving DecidableEq, Repr

/-- A report record (R60). Its `len` is the length of `bytes`; the tag of a frame is its first byte. -/
structure Report where
  role : Role
  bytes : List Byte
deriving DecidableEq, Repr

/-- What the host does to the block, in order: it presents a command word, or applies reset between two commands
(00_scope.md R4, 70_reset_and_hazards.md R220). -/
inductive HostInput where
  | command (w : CmdWord)
  | reset
deriving DecidableEq, Repr

/-- Why a primitive access has no result. No step from a state that meets the invariant (`State.Inv`) answers one:
they mark the domain of the two primitives (entry 6). -/
inductive Fault where
  /-- Raised by `memRead` for an index at or above `SIZE` (R31). Safe: it stops where the spec defines no read. -/
  | readOutsideValid
  /-- Raised by `memRead` and `memWrite` for an index at or above `CAPACITY`, which names no byte (R30, R32). Safe: it
  stops where the spec says there is no such byte. -/
  | noSuchIndex
deriving DecidableEq, Repr

/-- Why an instruction is not run. -/
inductive Refusal where
  /-- Raised by `exec` for a command without a meaning. Safe. No arm of `exec` raises it. -/
  | notModelled (mnemonic : String)
deriving DecidableEq, Repr

/-- The state of MBSC and of the four streams at its boundary. -/
structure State where
  /-- `BUF` (R10): (index, byte) cells in canonical form, see `Memory.wf`. -/
  mem : List Host.Cell
  /-- `SIZE` (R11). -/
  size : Nat
  /-- `UACC`, the host-visible CRC accumulator (R12). -/
  uacc : Crc
  /-- `CMD` (R16): what the host has presented and the block has not yet taken, oldest first (entry 1). -/
  cmd : List HostInput
  /-- `RSP` (R16): the response words so far, oldest first. -/
  rsp : List RspWord
  /-- `RPT` (R16): the report records so far, oldest first. -/
  rpt : List Report
  /-- `TX` (R16): the transmitted bytes so far, oldest first. -/
  tx : List Byte
deriving DecidableEq, Repr

/-- The state after reset (R20): `SIZE` 0, `UACC` 0xFFFF, nothing in any stream. `BUF` is unspecified there and cannot
be observed; no index is listed (entry 3). -/
def State.reset : State where
  mem := []
  size := 0
  uacc := 0xFFFF#16
  cmd := []
  rsp := []
  rpt := []
  tx := []

/-- The outcome of a command or of a step. -/
abbrev Out := Host.Outcome State Fault Refusal

end Sys2Proof.Machine
end

