-- ==== Sys2Proof/Machine/Ops.lean ====
section
/-! DEFINITION. The named operations over `BUF`, the registers and the streams that every command uses: the memory
cells, the read and write primitives with their domains (20_memory.md R31, R32), ranges, compaction (41_frame_buffer.md
R101), reports (30_encoding.md R60), the response (R58, R59), raising a command error (60_exceptions.md R195) and the
reset event (70_reset_and_hazards.md R220). -/

namespace Sys2Proof.Machine

/-! ## Updating one field -/

/-- `BUF` replaced. -/
def State.setMem (m : List Host.Cell) (s : State) : State := { s with mem := m }

/-- `SIZE <- n`. -/
def State.setSize (n : Nat) (s : State) : State := { s with size := n }

/-- `UACC <- c`. -/
def State.setUacc (c : Crc) (s : State) : State := { s with uacc := c }

/-- The pending input replaced. -/
def State.setCmd (c : List HostInput) (s : State) : State := { s with cmd := c }

/-- One word appended to `RSP`. -/
def State.addRsp (w : RspWord) (s : State) : State := { s with rsp := s.rsp ++ [w] }

/-- One record appended to `RPT`. -/
def State.addRpt (r : Report) (s : State) : State := { s with rpt := s.rpt ++ [r] }

/-- Bytes appended to `TX`, in order. -/
def State.addTx (bs : List Byte) (s : State) : State := { s with tx := s.tx ++ bs }

/-! ## Sequencing -/

/-- A computation that may fault, continued by a computation that may fault. -/
def chain {α β : Type} (r : Except Fault α) (k : α → Except Fault β) : Except Fault β :=
  match r with
  | .ok a => k a
  | .error f => .error f

/-- A computation that may fault, continued to the command's outcome. -/
def onOk {α : Type} (r : Except Fault α) (k : α → Out) : Out :=
  match r with
  | .ok a => k a
  | .error f => .fault f

/-- An outcome continued where it is a next state. -/
def andThen {σ τ : Type} (o : Host.Outcome σ Fault Refusal) (k : σ → Host.Outcome τ Fault Refusal) :
    Host.Outcome τ Fault Refusal :=
  match o with
  | .next s => k s
  | .fault f => .fault f
  | .refused r => .refused r

/-! ## The cells of `BUF` -/

/-- What an index that is not listed reads as. The spec gives none ("unspecified, and unobservable", R20).
DESIGN CHOICE, entry 3; unsafe. -/
def unlistedByte : Byte := 0x00#8

/-- The byte a list of cells holds at an index. -/
def Memory.read : List Host.Cell → Nat → Byte
  | [], _ => unlistedByte
  | (k, v) :: rest, i => if k = i then v else Memory.read rest i

/-- One byte stored, keeping the indices rising and no cell equal to `unlistedByte`. -/
def Memory.write : List Host.Cell → Nat → Byte → List Host.Cell
  | [], i, b => if b = unlistedByte then [] else [(i, b)]
  | (k, v) :: rest, i, b =>
    if i < k then (if b = unlistedByte then (k, v) :: rest else (i, b) :: (k, v) :: rest)
    else if i = k then (if b = unlistedByte then rest else (i, b) :: rest)
    else (k, v) :: Memory.write rest i b

/-- The cells are in canonical form from index `lo` on: indices strictly rising, none below `lo`, none equal to
`unlistedByte`. -/
def Memory.wfFrom (lo : Nat) : List Host.Cell → Bool
  | [] => true
  | (k, v) :: rest => decide (lo ≤ k) && decide (v ≠ unlistedByte) && Memory.wfFrom (k + 1) rest

/-- The canonical form of `BUF`. -/
def Memory.wf (m : List Host.Cell) : Bool := Memory.wfFrom 0 m

/-- Every listed index is one of the `CAPACITY` indices of `BUF` (R30). -/
def Memory.inRange (m : List Host.Cell) : Bool := m.all fun c => decide (c.1 < Config.capacity)

/-! ## Reading and writing `BUF` (R31, R32) -/

/-- `MemRead(i, 1)`: defined only for `i < SIZE` (R31), and only where `BUF` has an index `i` (R30). -/
def memRead (s : State) (i : Nat) : Except Fault Byte :=
  if i < s.size then
    if i < Config.capacity then .ok (Memory.read s.mem i) else .error .noSuchIndex
  else .error .readOutsideValid

/-- `MemWrite(i, 1, v)`: defined only for `i < CAPACITY` (R32). -/
def memWrite (s : State) (i : Nat) (v : Byte) : Except Fault State :=
  if i < Config.capacity then .ok (s.setMem (Memory.write s.mem i v)) else .error .noSuchIndex

/-- `BUF[off .. off + n)` as a list, oldest byte first (R7). -/
def readRange (s : State) (off : Nat) : Nat → Except Fault (List Byte)
  | 0 => .ok []
  | n + 1 => chain (memRead s off) fun b => chain (readRange s (off + 1) n) fun bs => .ok (b :: bs)

/-- The valid bytes `BUF[0 .. SIZE)` as a list, oldest first (R10). A view for tests and claims: no command uses
it. -/
def State.valid (s : State) : List Byte := (List.range s.size).map (Memory.read s.mem)

/-! ## Compaction (R101) -/

/-- `n` turns of `BUF[k] <- BUF[start + k]`, from `k` on in increasing order. -/
def moveDown (start : Nat) : Nat → Nat → State → Except Fault State
  | 0, _, s => .ok s
  | n + 1, k, s =>
    chain (memRead s (start + k)) fun b =>
      chain (memWrite s k b) fun t => moveDown start n (k + 1) t

/-- The bytes `[start, SIZE)` shifted to index 0, then `SIZE <- SIZE - start`. The callers establish
`start <= SIZE`. The bytes at and above the new `SIZE` are left as they are: stale (R10, entry 4). -/
def compactTo (start : Nat) (s : State) : Except Fault State :=
  chain (moveDown start (s.size - start) 0 s) fun t => .ok (t.setSize (s.size - start))

/-! ## Reports and transmit bytes (R60, R61) -/

/-- `report(role, BUF[off .. off + n))`: the bytes are copied out before the buffer is changed (R60). -/
def reportRange (role : Role) (off n : Nat) (s : State) : Except Fault State :=
  chain (readRange s off n) fun bs => .ok (s.addRpt ⟨role, bs⟩)

/-- `report(NOISE, BUF[0 .. SIZE))`, then `SIZE <- 0`: the recovery shared by SYNC.EVICT and SYNC.FLUSH
(60_exceptions.md R198). -/
def discardAll (s : State) : Except Fault State :=
  chain (reportRange .noise 0 s.size s) fun t => .ok (t.setSize 0)

/-! ## The response (R58, R59) -/

/-- The response codes (R59). -/
inductive RspCode where
  | ok | found | noFrame | discarded | errOpcode | errReserved | errOperand
deriving DecidableEq, Repr

/-- The 8-bit code (R59). -/
def RspCode.bits : RspCode → BitVec 8
  | .ok => 0x00#8
  | .found => 0x01#8
  | .noFrame => 0x02#8
  | .discarded => 0x03#8
  | .errOpcode => 0xE1#8
  | .errReserved => 0xE2#8
  | .errOperand => 0xE3#8

/-- The response word: `code` in bits 31:24, `val` in bits 23:0 (R58). -/
def rspWord (c : RspCode) (v : Val) : RspWord := c.bits ++ v

/-- A count in `val[11:0]`, the other bits 0 (R59). -/
def valCount (n : Nat) : Val := (BitVec.ofNat 12 n).zeroExtend 24

/-- A pair in `val[23:12]` and `val[11:0]`: FOUND's start and end (R59). -/
def valPair (hi lo : Nat) : Val := BitVec.ofNat 12 hi ++ BitVec.ofNat 12 lo

/-- A CRC in `val[15:0]` (R59). -/
def valCrc (c : Crc) : Val := c.zeroExtend 24

/-- A byte in `val[7:0]` (R59). -/
def valByte (b : Byte) : Val := b.zeroExtend 24

/-- `respond(CODE, val)`: one word appended to `RSP` (R58). -/
def respond (c : RspCode) (v : Val) (s : State) : State := s.addRsp (rspWord c v)

/-! ## Command errors (R195) and reset (R220) -/

/-- The three command errors (R57, R190). -/
inductive CmdError where
  | opcode | reserved | operand
deriving DecidableEq, Repr

/-- The response code of a command error (R190). -/
def CmdError.code : CmdError → RspCode
  | .opcode => .errOpcode
  | .reserved => .errReserved
  | .operand => .errOperand

/-- `raise <Error>()`: the command ends with the response `(code, 0)` and no state element changes (R195, R198). It is
the one exception mechanism of MBSC, and there is no return from it: the next command is taken normally (R199). -/
def raiseError (e : CmdError) (s : State) : Out := .next (respond e.code 0 s)

/-- The error a word that is no command raises (R57 cases 1 and 2). -/
def errorOfDecode : DecodeError → CmdError
  | .unknownOpcode => .opcode
  | .reservedBits => .reserved

/-- The reset event (R220): `SIZE` 0, `UACC` 0xFFFF, nothing emitted; the bytes held are lost without a record. What is
pending in `CMD` and what was emitted stay, and so does `BUF`, which nothing can observe (entries 2 and 4). -/
def applyReset (s : State) : State := (s.setSize 0).setUacc 0xFFFF#16

/-- The next input the host has presented, and the state without it (R39: in the order of `CMD`). -/
def takeInput (s : State) : Option (HostInput × State) :=
  match s.cmd with
  | [] => none
  | x :: rest => some (x, s.setCmd rest)

end Sys2Proof.Machine
end

