-- ==== Sys2Proof/Machine/Operands.lean ====
section
/-! DEFINITION. The operand forms. MBSC has no addressing modes: an operand is a field of the command word taken as it
stands (30_encoding.md R55; the fields are read by `assemble`). Three commands check an operand against the state
(R57 case 3); the comparisons are on natural numbers, without wrap (40_crc16_engine.md R90). -/

namespace Sys2Proof.Machine

/-- CRC.RANGE's range `[off, off + len)` lies inside the valid bytes: not `off + len > SIZE` (R90). -/
def rangeInside (off len : Nat) (s : State) : Bool := decide (off + len ≤ s.size)

/-- BUF.COMPACT drops no more bytes than there are: not `from > SIZE` (R101). -/
def compactInside (start : Nat) (s : State) : Bool := decide (start ≤ s.size)

/-- BUF.READ names a valid byte: not `idx >= SIZE` (R103). -/
def indexInside (idx : Nat) (s : State) : Bool := decide (idx < s.size)

end Sys2Proof.Machine
end

