-- ==== Sys2Proof/Machine/CrcEngine.lean ====
section
/-! DEFINITION. The CRC16 Engine (40_crc16_engine.md): the checksum of a byte and of a list of bytes, and the commands
CRC.INIT, CRC.BYTE, CRC.READ, CRC.EMIT and CRC.RANGE. -/

namespace Sys2Proof.Machine

/-! ## The checksum (R80, R81) -/

/-- One of the eight iterations: the low bit is tested before the (logical) shift (R80). -/
def crcBit (t : Crc) : Crc :=
  if t.getLsbD 0 then (t >>> 1) ^^^ Config.crcPoly else t >>> 1

/-- `n` iterations. -/
def crcBits : Nat → Crc → Crc
  | 0, t => t
  | n + 1, t => crcBits n (crcBit t)

/-- `crc_step(acc, b)` (R80): the byte XORed into the low 8 bits, then eight iterations. -/
def crcStep (acc : Crc) (b : Byte) : Crc := crcBits 8 (acc ^^^ b.zeroExtend 16)

/-- `crc16(bytes)` (R81): the left fold of `crc_step` from `CRC_INIT`; no final XOR. -/
def crc16 (bytes : List Byte) : Crc := bytes.foldl crcStep Config.crcInit

/-- The low byte of a CRC, `crc[7:0]` (20_memory.md R33). -/
def crcLow (c : Crc) : Byte := c.extractLsb' 0 8

/-- The high byte of a CRC, `crc[15:8]` (R33). -/
def crcHigh (c : Crc) : Byte := c.extractLsb' 8 8

/-! ## The commands -/

/-- CRC.INIT (R86). -/
def execCrcInit (s : State) : Out := .next (respond .ok 0 (s.setUacc Config.crcInit))

/-- CRC.BYTE (R87). -/
def execCrcByte (byte : Byte) (s : State) : Out :=
  .next (respond .ok 0 (s.setUacc (crcStep s.uacc byte)))

/-- CRC.READ (R88): the accumulator as it stands. -/
def execCrcRead (s : State) : Out := .next (respond .ok (valCrc s.uacc) s)

/-- CRC.EMIT (R89): low byte first; `UACC` unchanged. -/
def execCrcEmit (s : State) : Out :=
  .next (respond .ok 0 (s.addTx [crcLow s.uacc, crcHigh s.uacc]))

/-- CRC.RANGE (R90). -/
def execCrcRange (off len : Nat) (s : State) : Out :=
  if rangeInside off len s then
    onOk (readRange s off len) fun bs => .next (respond .ok (valCrc (crc16 bs)) s)
  else raiseError .operand s

end Sys2Proof.Machine
end

