-- ==== Sys2Proof/Machine/Flags.lean ====
section
/-! DEFINITION. The conditions MBSC computes (10_state.md R15: no flag is stored) and the status word (R17). -/

namespace Sys2Proof.Machine

/-- `FULL`: `SIZE = CAPACITY` (R15). -/
def isFull (s : State) : Bool := decide (s.size = Config.capacity)

/-- `EMPTY`: `SIZE = 0` (R15). -/
def isEmpty (s : State) : Bool := decide (s.size = 0)

/-- The zero test of the scan, `SACC = 0x0000` (R15, 42_frame_synchronizer.md R124). -/
def isZero (sacc : Crc) : Bool := decide (sacc = 0x0000#16)

/-- The status word: bits 23:14 zero, 13 `EMPTY`, 12 `FULL`, 11:0 `SIZE` (R17). -/
def statusWord (s : State) : Val :=
  0#10 ++ (BitVec.ofBool (isEmpty s) ++ (BitVec.ofBool (isFull s) ++ BitVec.ofNat 12 s.size : BitVec 13) : BitVec 14)

end Sys2Proof.Machine
end

