-- ==== Sys2Proof/Machine/FrameBuffer.lean ====
section
/-! DEFINITION. The Frame Buffer's commands (41_frame_buffer.md): BUF.PUSH, BUF.COMPACT, BUF.RESET, BUF.READ. None
of them reports anything (R104). -/

namespace Sys2Proof.Machine

/-- BUF.PUSH (R100): one byte appended if there is room; the response is the count appended. -/
def execBufPush (byte : Byte) (s : State) : Out :=
  if s.size < Config.capacity then
    onOk (memWrite s s.size byte) fun t => .next (respond .ok (valCount 1) (t.setSize (s.size + 1)))
  else .next (respond .ok (valCount 0) s)

/-- BUF.COMPACT (R101): the response is the new `SIZE`. -/
def execBufCompact (start : Nat) (s : State) : Out :=
  if compactInside start s then
    onOk (compactTo start s) fun t => .next (respond .ok (valCount t.size) t)
  else raiseError .operand s

/-- BUF.RESET (R102): the bytes are not cleared, they become stale. -/
def execBufReset (s : State) : Out := .next (respond .ok 0 (s.setSize 0))

/-- BUF.READ (R103). -/
def execBufRead (idx : Nat) (s : State) : Out :=
  if indexInside idx s then
    onOk (memRead s idx) fun b => .next (respond .ok (valByte b) s)
  else raiseError .operand s

end Sys2Proof.Machine
end

