-- ==== Sys2Proof/Machine/Synchronizer.lean ====
section
/-! DEFINITION. The Frame Synchronizer (42_frame_synchronizer.md): the scan with its two loops, and the commands
SYNC.SCAN, SYNC.EVICT, SYNC.FLUSH. The line names L1 to L12 are those of R121. The scan's registers `S`, `I` and
`SACC` are arguments of the loops (10_state.md R13). The synchronizer is SEARCHING before and after every command
(R120); it is SYNCHRONIZED between the scan's answer and the end of `confirmFrame`. -/

namespace Sys2Proof.Machine

/-- The classifier, L2 and L3 (R123, 30_encoding.md R51, R52): bit 7 masked off, then the allow-list. -/
def plausible (fcByte : Byte) : Bool := Config.fcAllow.contains (fcByte &&& Config.fcMask)

/-- The inner loop, L5 to L7 (R124): `n` bytes are left to fold from index `i` on. It answers the end of the frame, one
past the first byte at which the accumulator is zero, or none when the candidate is exhausted. -/
def extend (s : State) : Nat → Nat → Crc → Except Fault (Option Nat)
  | 0, _, _ => .ok none
  | n + 1, i, sacc =>
    chain (memRead s i) fun b =>
      if isZero (crcStep sacc b) then .ok (some (i + 1)) else extend s n (i + 1) (crcStep sacc b)

/-- The outer loop, L1 to L4 (R122, R123): `n` candidates are left from `start` on. It answers the start and the end of
the first frame, or none. A candidate has `SIZE - start` bytes to fold. -/
def candidates (s : State) : Nat → Nat → Except Fault (Option (Nat × Nat))
  | 0, _ => .ok none
  | n + 1, start =>
    chain (memRead s (start + 1)) fun fc =>
      if plausible fc then
        chain (extend s (s.size - start) start Config.crcInit) fun found =>
          match found with
          | some stop => .ok (some (start, stop))
          | none => candidates s n (start + 1)
      else candidates s n (start + 1)

/-- The search of one scan. The candidates are the offsets `S` with `S + 1 < SIZE` (R122): there are `SIZE - 1` of
them, and none when `SIZE` is 0 (natural subtraction stops at 0) or 1. -/
def scan (s : State) : Except Fault (Option (Nat × Nat)) := candidates s (s.size - 1) 0

/-- L8 to L11, in the order of R126: the noise record if `S > 0`, the frame record, the compaction. -/
def confirmFrame (start stop : Nat) (s : State) : Except Fault State :=
  chain (if 0 < start then reportRange .noise 0 start s else .ok s) fun t =>
    chain (reportRange .frame start (stop - start) t) fun u => compactTo stop u

/-- SYNC.SCAN (R121). -/
def execSyncScan (s : State) : Out :=
  onOk (scan s) fun found =>
    match found with
    | some (start, stop) =>
      onOk (confirmFrame start stop s) fun t => .next (respond .found (valPair start stop) t)
    | none => .next (respond .noFrame 0 s)

/-- SYNC.EVICT (R130): it tests only `FULL`. -/
def execSyncEvict (s : State) : Out :=
  if isFull s then
    onOk (discardAll s) fun t => .next (respond .discarded (valCount Config.capacity) t)
  else .next (respond .discarded (valCount 0) s)

/-- SYNC.FLUSH (R131): it acts at every `SIZE`; an empty buffer gives no record. -/
def execSyncFlush (s : State) : Out :=
  if isEmpty s then .next (respond .discarded (valCount 0) s)
  else onOk (discardAll s) fun t => .next (respond .discarded (valCount s.size) t)

end Sys2Proof.Machine
end

