-- ==== Sys2Proof/Machine/System.lean ====
section
/-! DEFINITION. The system commands (43_system_commands.md): NOP, STATUS, SRST. -/

namespace Sys2Proof.Machine

/-- NOP (R150). -/
def execNop (s : State) : Out := .next (respond .ok 0 s)

/-- STATUS (R151). -/
def execStatus (s : State) : Out := .next (respond .ok (statusWord s) s)

/-- SRST (R152): the state of the reset event, and a response. -/
def execSrst (s : State) : Out := .next (respond .ok 0 (applyReset s))

end Sys2Proof.Machine
end

