-- ==== Sys2Proof/Machine/Dispatch.lean ====
section
/-! DEFINITION. One arm per command, each calling that command's meaning. -/

namespace Sys2Proof.Machine

def exec (i : Instr) (s : State) : Host.Outcome State Fault Refusal :=
  match i with
  | .nop => Sys2Proof.Machine.execNop s
  | .status => Sys2Proof.Machine.execStatus s
  | .srst => Sys2Proof.Machine.execSrst s
  | .crcInit => Sys2Proof.Machine.execCrcInit s
  | .crcByte byte => Sys2Proof.Machine.execCrcByte byte s
  | .crcRead => Sys2Proof.Machine.execCrcRead s
  | .crcEmit => Sys2Proof.Machine.execCrcEmit s
  | .crcRange off len => Sys2Proof.Machine.execCrcRange off len s
  | .bufPush byte => Sys2Proof.Machine.execBufPush byte s
  | .bufCompact start => Sys2Proof.Machine.execBufCompact start s
  | .bufReset => Sys2Proof.Machine.execBufReset s
  | .bufRead idx => Sys2Proof.Machine.execBufRead idx s
  | .syncScan => Sys2Proof.Machine.execSyncScan s
  | .syncEvict => Sys2Proof.Machine.execSyncEvict s
  | .syncFlush => Sys2Proof.Machine.execSyncFlush s

end Sys2Proof.Machine
end

