-- ==== Sys2Proof/Machine/Step.lean ====
section
/-! DEFINITION. One step of MBSC (00_scope.md R5): "the next command word is taken, executed to its end, and one
response word is produced, with zero or more report records and transmit bytes". A word that is no command raises its
error (30_encoding.md R57). The reset event stands in the same input list (entry 2). With nothing presented the block
waits, unchanged (70_reset_and_hazards.md R221, entry 1). -/

namespace Sys2Proof.Machine

def step (s : State) : Host.Outcome State Fault Refusal :=
  match takeInput s with
  | none => .next s
  | some (.reset, t) => .next (applyReset t)
  | some (.command w, t) =>
    match decode w with
    | .ok i => exec i t
    | .error e => raiseError (errorOfDecode e) t

/-- The host presents this word as the next input: the very next step takes it (entry 1). -/
def State.withFetchWord (s : State) (nbits w : Nat) : State :=
  s.setCmd (.command (BitVec.ofNat 32 (w % 2 ^ nbits)) :: s.cmd)

end Sys2Proof.Machine
end

