-- ==== Sys2Proof/Machine/Collaborators.lean ====
section
/-! DEFINITION. The Device Color Registry (44_host_macros_and_collaborators.md R169), outside the block (00_scope.md
R3) and read by no command: its contract, so that a host can be modelled. The palette is an argument
(91_not_in_source.md N12, entry 12). The transport's part in the read cycle is in Machine/HostMacros.lean. -/

namespace Sys2Proof.Machine

/-- The map from slave address to colour: the distinct addresses seen, in the order of their first sighting. The `k`-th
has the palette's colour `k mod length`. -/
structure Registry where
  seen : List Byte
deriving DecidableEq, Repr

/-- "Created empty at process start". -/
def Registry.start : Registry := ⟨[]⟩

/-- The registry after a sighting of `address`: "entries added on first sighting of each address; never removed". -/
def Registry.sight (address : Byte) (r : Registry) : Registry :=
  if r.seen.contains address then r else ⟨r.seen ++ [address]⟩

/-- `colorFor(address)`: the colour and the registry after the call; no colour from an empty palette. -/
def Registry.colorFor {γ : Type} (palette : List γ) (address : Byte) (r : Registry) : Option γ × Registry :=
  (palette[(r.sight address).seen.idxOf address % palette.length]?, r.sight address)

/-- The colours of a list of reports: the host calls `colorFor(bytes[0])` for each frame record and for no noise
record. -/
def Registry.colorReports {γ : Type} (palette : List γ) : List Report → Registry → List (Option γ) × Registry
  | [], r => ([], r)
  | rep :: rest, r =>
    match rep.role, rep.bytes with
    | .frame, address :: _ =>
      let (c, r1) := r.colorFor palette address
      let (cs, r2) := Registry.colorReports palette rest r1
      (c :: cs, r2)
    | _, _ =>
      let (cs, r2) := Registry.colorReports palette rest r
      (none :: cs, r2)

end Sys2Proof.Machine
end

