-- ==== Sys2Proof/Machine/HostMacros.lean ====
section
/-! DEFINITION. The host's macros (44_host_macros_and_collaborators.md R160 to R166): sequences of commands the host
issues, possibly choosing the next one from the last response. They are no commands of the block and have no encoding
(30_encoding.md R63). READCYCLE (R164) is the reference host's loop, once (`readCycle`) and forever
(`readForever`), over a list of looks at the transport (entry 11). -/

namespace Sys2Proof.Machine

/-- Commands executed one after another, each to its end (20_memory.md R39). -/
def runCommands : List Instr → State → Out
  | [], s => .next s
  | i :: rest, s => andThen (exec i s) (runCommands rest)

/-- The last response has this code. -/
def answered (c : RspCode) (s : State) : Bool :=
  s.rsp.getLast?.map (fun w => w.extractLsb' 24 8) == some c.bits

/-! ## The macros (R160 to R163, R165, R166) -/

/-- APPEND (R160): the bytes of a chunk pushed in order. -/
def appendCommands (bytes : List Byte) : List Instr := bytes.map .bufPush

/-- The "count actually appended" of an APPEND of `n` bytes: the sum of the counts in its responses (R160). -/
def appendedCount (n : Nat) (s : State) : Nat :=
  ((s.rsp.drop (s.rsp.length - n)).map fun w => (w.extractLsb' 0 12).toNat).sum

/-- What the host still holds of a chunk after an APPEND: with `retry_rejected` the bytes a full buffer rejected, else
nothing (41_frame_buffer.md R100, 92_eei_decisions.md D15). -/
def keptAfterAppend (retryRejected : Bool) (bytes : List Byte) (count : Nat) : List Byte :=
  if retryRejected then bytes.drop count else []

/-- STEP (R161): one scan, and SYNC.EVICT if the scan answered NOFRAME. -/
def stepMacro (s : State) : Out :=
  andThen (exec .syncScan s) fun t => if answered .noFrame t then exec .syncEvict t else .next t

/-- INGEST (R162): one chunk through the core. -/
def ingest (bytes : List Byte) (s : State) : Out :=
  andThen (runCommands (appendCommands bytes) s) stepMacro

/-- TIMEOUT (R163). -/
def timeoutCommands : List Instr := [.syncFlush]

/-- CRC16 (R165). -/
def crc16Commands (bytes : List Byte) : List Instr := .crcInit :: (bytes.map .crcByte ++ [.crcRead])

/-- FRAME.TX (R166): the block's part, the payload bytes being written to the transport by the host itself. -/
def frameTxCommands (bytes : List Byte) : List Instr := .crcInit :: (bytes.map .crcByte ++ [.crcEmit])

/-! ## READCYCLE (R164) -/

/-- One look of the host at the transport and at its own clock. -/
structure Poll where
  /-- The bytes that arrived since the look before. -/
  arrivals : List Byte
  /-- The host's time, in ms. -/
  now : Nat
deriving DecidableEq, Repr

/-- What the read cycle works on: the block, and the host's own two pieces of data (10_state.md R18). -/
structure ReadLoop where
  core : State
  /-- The transport's receive buffer, oldest first: "bytes currently available" is its length (R167). -/
  pending : List Byte
  /-- "the last time new bytes arrived". -/
  tLast : Nat
deriving DecidableEq, Repr

/-- How a cycle ended. -/
inductive CycleEnd where
  | found
  | timedOut
deriving DecidableEq, Repr

/-- The bytes that arrived are in the transport's buffer. -/
def receive (p : Poll) (h : ReadLoop) : ReadLoop := { h with pending := h.pending ++ p.arrivals }

/-- "wait until transport.available() >= 1; t_last <- now": the looks are used up to the first one with a byte. -/
def waitForByte : List Poll → ReadLoop → ReadLoop × List Poll
  | [], h => (h, [])
  | p :: ps, h =>
    if (receive p h).pending = [] then waitForByte ps (receive p h)
    else ({ receive p h with tLast := p.now }, ps)

/-- "if n > 0 then chunk <- read(at most CAPACITY - SIZE bytes); APPEND chunk; t_last <- now". -/
def drain (p : Poll) (h : ReadLoop) : Host.Outcome ReadLoop Fault Refusal :=
  if h.pending = [] then .next h
  else
    andThen (runCommands (appendCommands (h.pending.take (Config.capacity - h.core.size))) h.core) fun t =>
      .next { core := t, pending := h.pending.drop (Config.capacity - h.core.size), tLast := p.now }

/-- One pass of the loop's body: receive, drain, STEP, and the two ways a cycle ends. -/
def readPass (p : Poll) (h : ReadLoop) : Host.Outcome (ReadLoop × Option CycleEnd) Fault Refusal :=
  andThen (drain p (receive p h)) fun g =>
    andThen (stepMacro g.core) fun t =>
      if answered .found t then .next ({ g with core := t }, some .found)
      else if Config.timeoutMs ≤ p.now - g.tLast then
        andThen (runCommands timeoutCommands t) fun u => .next ({ g with core := u }, some .timedOut)
      else .next ({ g with core := t }, none)

/-- The loop: passes until the cycle ends. It answers how it ended (none: the looks ran out first) and the looks left
for the next cycle. -/
def readPasses : List Poll → ReadLoop → Host.Outcome (ReadLoop × Option CycleEnd × List Poll) Fault Refusal
  | [], h => .next (h, none, [])
  | p :: ps, h =>
    andThen (readPass p h) fun r =>
      match r.2 with
      | some e => .next (r.1, some e, ps)
      | none => readPasses ps r.1

/-- READCYCLE: the wait, then the loop. -/
def readCycle (polls : List Poll) (h : ReadLoop) :
    Host.Outcome (ReadLoop × Option CycleEnd × List Poll) Fault Refusal :=
  readPasses (waitForByte polls h).2 (waitForByte polls h).1

/-- At most `n` cycles, one after another: the block, the transport's buffer and the looks left go on into the next
cycle. It answers how the finished cycles ended, in order. -/
def readCycles : Nat → List Poll → ReadLoop → Host.Outcome (ReadLoop × List CycleEnd) Fault Refusal
  | 0, _, h => .next (h, [])
  | n + 1, polls, h =>
    andThen (readCycle polls h) fun r =>
      match r.2.1 with
      | some e => andThen (readCycles n r.2.2 r.1) fun q => .next (q.1, e :: q.2)
      | none => .next (r.1, [])

/-- "forever: READCYCLE" (R164), for as long as the host looks: "the loop runs until the process is terminated
externally", which is here the end of the looks. A finished cycle uses up at least one look, so that no cycle is cut by
the count. -/
def readForever (polls : List Poll) (h : ReadLoop) : Host.Outcome (ReadLoop × List CycleEnd) Fault Refusal :=
  readCycles polls.length polls h

end Sys2Proof.Machine
end

