-- ==== Sys2Proof/Safety.lean ====
section
/-! DEFINITION. What counts as a legal state and a legal output of MBSC, and the words in which claims about a scan and
about the byte stream are made. -/

namespace Sys2Proof.Machine

/-- The invariant of the state at every command boundary (10_state.md R11, R21; 20_memory.md R30): `SIZE` at most
`CAPACITY`, `BUF`'s cells in canonical form, each at an index below `CAPACITY`. -/
structure State.Inv (s : State) : Prop where
  size_le : s.size ≤ Config.capacity
  mem_wf : Memory.wf s.mem = true
  mem_inRange : Memory.inRange s.mem = true

/-- A record as R60 allows it: `len` from 1 to `CAPACITY`. -/
def Report.legal (r : Report) : Bool :=
  decide (1 ≤ r.bytes.length) && decide (r.bytes.length ≤ Config.capacity)

/-- The seven values of `code` a response word can have: "All other values of `code` are never produced" (R59). -/
def legalCodes : List (BitVec 8) := [0x00#8, 0x01#8, 0x02#8, 0x03#8, 0xE1#8, 0xE2#8, 0xE3#8]

/-- A response word with one of the seven codes (R59). -/
def legalResponse (w : RspWord) : Bool := legalCodes.contains (w.extractLsb' 24 8)

/-- Every entry of the two structured output streams is legal. -/
def State.outputsLegal (s : State) : Bool := s.rpt.all Report.legal && s.rsp.all legalResponse

/-- The accepted bytes as far as they can still be accounted for: those reported, in the order of the records, then
those in the buffer (44_host_macros_and_collaborators.md R168). -/
def State.account (s : State) : List Byte := (s.rpt.map Report.bytes).flatten ++ s.valid

/-- Two states no command stream can tell apart (10_state.md R10, R21): they differ in stale bytes only. -/
structure State.SameView (s t : State) : Prop where
  size_eq : s.size = t.size
  uacc_eq : s.uacc = t.uacc
  valid_eq : s.valid = t.valid
  cmd_eq : s.cmd = t.cmd
  rsp_eq : s.rsp = t.rsp
  rpt_eq : s.rpt = t.rpt
  tx_eq : s.tx = t.tx

/-! ## What a scan of a list of bytes looks for (42_frame_synchronizer.md R122 to R125) -/

/-- `start` is a plausible candidate: the byte after it exists and masks to 3, 6 or 22 (R122, R123). -/
def IsCandidate (bytes : List Byte) (start : Nat) : Prop :=
  ∃ fc, bytes[start + 1]? = some fc ∧ fc &&& 0x7F#8 ∈ [3#8, 6#8, 22#8]

/-- `[start, stop)` is a non-empty range of the bytes with CRC16 zero (R82). -/
def IsZeroRange (bytes : List Byte) (start stop : Nat) : Prop :=
  start < stop ∧ stop ≤ bytes.length ∧ crc16 ((bytes.drop start).take (stop - start)) = 0x0000#16

/-- `[start, stop)` is the range R125 says is confirmed: the smallest plausible start that has a zero range, and for it
the smallest end. -/
structure IsFirstFrame (bytes : List Byte) (start stop : Nat) : Prop where
  candidate : IsCandidate bytes start
  zero : IsZeroRange bytes start stop
  shortest : ∀ e, e < stop → ¬ IsZeroRange bytes start e
  lowest : ∀ c, c < start → IsCandidate bytes c → ∀ e, ¬ IsZeroRange bytes c e

/-- No plausible start has a zero range (R127). -/
def NoFrame (bytes : List Byte) : Prop :=
  ∀ c, IsCandidate bytes c → ∀ e, ¬ IsZeroRange bytes c e

end Sys2Proof.Machine
end

