-- ==== Sys2Proof/Certificates/Slice0/Obligations.lean ====
section
/-! DEFINITION. The statements about the model, each from a numbered rule of spec/ named in its docstring. Response
words are written out from 30_encoding.md R58 and R59, not through the model's own functions. `s.Inv` is the invariant
of Safety.lean; that it holds at reset and that every step keeps it are statements of their own. -/

namespace Sys2Proof.Claims

open Sys2Proof.Machine

/-- The fifteen values of `op` (R56). -/
def knownOps : List (BitVec 8) :=
  [0x00#8, 0x01#8, 0x02#8, 0x10#8, 0x11#8, 0x12#8, 0x13#8, 0x14#8, 0x20#8, 0x21#8, 0x22#8, 0x23#8, 0x30#8, 0x31#8,
   0x32#8]

/-- The fifteen pairs of `mask` and `match` (R56). -/
def maskAndMatch : List (BitVec 32 × BitVec 32) :=
  [(0xFFFFFFFF#32, 0x00000000#32), (0xFFFFFFFF#32, 0x01000000#32), (0xFFFFFFFF#32, 0x02000000#32),
   (0xFFFFFFFF#32, 0x10000000#32), (0xFFFFFF00#32, 0x11000000#32), (0xFFFFFFFF#32, 0x12000000#32),
   (0xFFFFFFFF#32, 0x13000000#32), (0xFF000000#32, 0x14000000#32), (0xFFFFFF00#32, 0x20000000#32),
   (0xFFFFF000#32, 0x21000000#32), (0xFFFFFFFF#32, 0x22000000#32), (0xFFFFF000#32, 0x23000000#32),
   (0xFFFFFFFF#32, 0x30000000#32), (0xFFFFFFFF#32, 0x31000000#32), (0xFFFFFFFF#32, 0x32000000#32)]

/-- A row of the command table: a word with this `op` is the command with these operands when its must-be-0 bits are 0,
and has reserved bits set otherwise (R55 to R57). -/
def EncodedAs (op : BitVec 8) (mask : BitVec 32) (build : BitVec 32 → Instr) : Prop :=
  ∀ w : BitVec 32, w.extractLsb' 24 8 = op →
    decode w = if w &&& mask = op ++ 0#24 then .ok (build w) else .error .reservedBits

/-- A command with an operand out of range for the state (R57 case 3). -/
def OperandOutside (i : Instr) (s : State) : Prop :=
  match i with
  | .crcRange off len => s.size < off + len
  | .bufCompact start => s.size < start
  | .bufRead idx => s.size ≤ idx
  | _ => False

/-- The response `OK` with a count in `val[11:0]`. -/
def okCount (n : Nat) : RspWord := 0x00000#20 ++ BitVec.ofNat 12 n

/-- The response `OK` with a CRC in `val[15:0]`. -/
def okCrc (c : Crc) : RspWord := 0x0000#16 ++ c

/-- The response `OK` with a byte in `val[7:0]`. -/
def okByte (b : Byte) : RspWord := 0x000000#24 ++ b

/-- The response `FOUND` with `val[23:12] = start` and `val[11:0] = stop`. -/
def foundWord (start stop : Nat) : RspWord :=
  0x01#8 ++ (BitVec.ofNat 12 start ++ BitVec.ofNat 12 stop : BitVec 24)

/-- The response `DISCARDED` with a count in `val[11:0]`. -/
def discardedWord (n : Nat) : RspWord := 0x03000#20 ++ BitVec.ofNat 12 n

end Sys2Proof.Claims

open Sys2Proof Sys2Proof.Machine Sys2Proof.Claims

/-! ## Decoding and encoding -/

/-- Words written out from the table of R56 and the examples of 95_test_vectors.md decode to the command they stand
for, or to the error they stand for. -/
def Obligations.TableWordsDecodeToTheirCommands : Prop :=
  decode 0x00000000#32 = .ok .nop ∧ decode 0x01000000#32 = .ok .status ∧ decode 0x02000000#32 = .ok .srst ∧
  decode 0x10000000#32 = .ok .crcInit ∧ decode 0x11000012#32 = .ok (.crcByte 0x12#8) ∧
  decode 0x14006002#32 = .ok (.crcRange 6 2) ∧ decode 0x14FFFFFF#32 = .ok (.crcRange 4095 4095) ∧
  decode 0x200000AB#32 = .ok (.bufPush 0xAB#8) ∧ decode 0x21000008#32 = .ok (.bufCompact 8) ∧
  decode 0x23000001#32 = .ok (.bufRead 1) ∧ decode 0x30000000#32 = .ok .syncScan ∧
  decode 0x7F000001#32 = .error .unknownOpcode ∧ decode 0x20000100#32 = .error .reservedBits

/-- Decode and encode agree: the word of every command with operands the encoding admits decodes to that command
(30_encoding.md part B.1). -/
def Obligations.DecodeOfEncodeIsTheCommand : Prop :=
  ∀ i : Instr, i.wf = true → decode (encode i) = .ok i

/-- Each word has one meaning: a word that decodes is the encoding of the command it decodes to, which has operands the
encoding admits (30_encoding.md part B.1). -/
def Obligations.EncodeOfDecodeIsTheWord : Prop :=
  ∀ (w : CmdWord) (i : Instr), decode w = .ok i → i.wf = true ∧ encode i = w

/-- R57 and R195: the three command errors in their order of checking; each ends the command with the response
`(code, 0)` and changes nothing else; every other word is one of the fifteen commands. -/
def Obligations.CommandErrorsAnswerAndChangeNothing : Prop :=
  ∀ (s : State) (w : CmdWord) (rest : List HostInput), s.cmd = .command w :: rest →
    (w.extractLsb' 24 8 ∉ knownOps →
      step s = .next { s with cmd := rest, rsp := s.rsp ++ [0xE1000000#32] }) ∧
    (w.extractLsb' 24 8 ∈ knownOps → (∀ p ∈ maskAndMatch, w &&& p.1 ≠ p.2) →
      step s = .next { s with cmd := rest, rsp := s.rsp ++ [0xE2000000#32] }) ∧
    ((∃ p ∈ maskAndMatch, w &&& p.1 = p.2) → ∃ i, decode w = .ok i ∧
      (OperandOutside i s → step s = .next { s with cmd := rest, rsp := s.rsp ++ [0xE3000000#32] }))

/-! ## The step -/

/-- When the next input is a word that decodes, the step is that command's execution, the word being taken from the
input first (00_scope.md R5, 20_memory.md R39). -/
def Obligations.StepRunsTheDecodedCommand : Prop :=
  ∀ (s : State) (w : CmdWord) (rest : List HostInput) (i : Instr),
    s.cmd = .command w :: rest → decode w = .ok i → step s = exec i { s with cmd := rest }

/-- The reset event (70_reset_and_hazards.md R220) sets `SIZE` and `UACC`, emits nothing and keeps the output streams;
with nothing presented the block waits (R221). The waiting step and the place of the event in the input list are the
model's choices (entries 1 and 2), and so is that `BUF`, unspecified after reset, keeps its bytes (entry 4). -/
def Obligations.StepTakesTheResetEventOrWaits : Prop :=
  ∀ s : State,
    (s.cmd = [] → step s = .next s) ∧
    (∀ rest, s.cmd = .reset :: rest →
      step s = .next { s with cmd := rest, size := 0, uacc := 0xFFFF#16 })

/-- The values after reset (10_state.md R20), the status word among them (R17). -/
def Obligations.ResetValues : Prop :=
  State.reset.size = 0 ∧ State.reset.uacc = 0xFFFF#16 ∧ State.reset.rsp = [] ∧ State.reset.rpt = [] ∧
  State.reset.tx = [] ∧ exec .status State.reset = .next { State.reset with rsp := [0x00002000#32] }

/-- What the first command after reset answers (R221, which the spec derives), whichever of these eight it is; the state
is otherwise the reset state. -/
def Obligations.FirstCommandAfterReset : Prop :=
  ∀ p ∈ [(Instr.status, 0x00002000#32), (.syncScan, 0x02000000#32), (.syncEvict, 0x03000000#32),
      (.syncFlush, 0x03000000#32), (.crcRead, 0x0000FFFF#32), (.bufRead 0, 0xE3000000#32),
      (.bufCompact 0, 0x00000000#32), (.crcRange 0 0, 0x0000FFFF#32)],
    exec p.1 State.reset = .next { State.reset with rsp := [p.2] }

/-- The invariant holds after reset. -/
def Obligations.ResetMeetsTheInvariant : Prop := State.reset.Inv

/-- The invariant, from every state that meets it: `0 <= SIZE <= CAPACITY` (10_state.md R11, R21), every byte at an
index below `CAPACITY` (20_memory.md R30, R32), `BUF`'s cells in canonical form (the model's own). -/
def Obligations.StepKeepsTheInvariant : Prop :=
  ∀ s t : State, s.Inv → step s = .next t → t.Inv

/-- "Every command of MBSC ends and answers" (R203): no step from a state that meets the invariant stops; a command
appends exactly one response word (R58), with one of the seven codes of R59. That a step with nothing presented answers
a next state, and that the reset event is a step, are the model's choices (entries 1 and 2). The premise is that the
sinks always accept (entry 9, the spec's decision D5). -/
def Obligations.EveryCommandEndsAndAnswers : Prop :=
  ∀ s : State, s.Inv → ∃ t, step s = .next t ∧
    match s.cmd with
    | .command _ :: _ => ∃ w, t.rsp = s.rsp ++ [w] ∧ legalResponse w = true
    | _ => t.rsp = s.rsp

/-- The output streams stay legal: every response has one of the seven codes, every record carries 1 to `CAPACITY` bytes
(30_encoding.md part B.2 and B.3; that no empty record is written is the spec's decision D13). -/
def Obligations.StepKeepsOutputsLegal : Prop :=
  ∀ s t : State, s.Inv → s.outputsLegal = true → step s = .next t → t.outputsLegal = true

/-- "Output streams are append-only" (10_state.md R16): a step extends each of the three, or leaves it. -/
def Obligations.OutputStreamsOnlyGrow : Prop :=
  ∀ s t : State, step s = .next t → s.rsp <+: t.rsp ∧ s.rpt <+: t.rpt ∧ s.tx <+: t.tx

/-! ## The checksum -/

/-- R80: `crc_step` is the byte XORed into the low bits, then eight times "if the low bit is set, right-shift the
accumulator and XOR with 0xA001; otherwise just right-shift"; with five example values. -/
def Obligations.CrcStepIsEightIterations : Prop :=
  (∀ (acc : Crc) (b : Byte), crcStep acc b =
    (fun t : Crc => if t.getLsbD 0 then (t >>> 1) ^^^ 0xA001#16 else t >>> 1)^[8] (acc ^^^ b.zeroExtend 16)) ∧
  crcStep 0xFFFF#16 0x01#8 = 0x807E#16 ∧ crcStep 0x0000#16 0x00#8 = 0x0000#16 ∧
  crcStep 0x0000#16 0x01#8 = 0xC0C1#16 ∧ crcStep 0xFFFF#16 0x00#8 = 0x40BF#16 ∧
  crcStep 0xFFFF#16 0xFF#8 = 0x00FF#16

/-- R81: `crc16` is the left fold of `crc_step` from 0xFFFF, extended byte by byte; with two example values. -/
def Obligations.Crc16ExtendsByteByByte : Prop :=
  crc16 [] = 0xFFFF#16 ∧ (∀ (xs : List Byte) (b : Byte), crc16 (xs ++ [b]) = crcStep (crc16 xs) b) ∧
  crc16 [0x01#8, 0x03#8, 0x00#8, 0x00#8, 0x00#8, 0x0A#8] = 0xCDC5#16 ∧
  crc16 [0xAA#8, 0x03#8, 0x00#8, 0x00#8, 0x00#8, 0x01#8] = 0xD19D#16

/-- A CRC16 appended low byte first makes the checksum zero (R83), through the two steps by which the spec derives that
from R80; the order matters. -/
def Obligations.Crc16OfTrailedRangeIsZero : Prop :=
  (∀ f : List Byte,
    crc16 (f ++ [(crc16 f).extractLsb' 0 8, (crc16 f).extractLsb' 8 8]) = 0x0000#16 ∧
    crcStep (crc16 f) ((crc16 f).extractLsb' 0 8) = ((crc16 f).extractLsb' 8 8).zeroExtend 16 ∧
    crcStep (((crc16 f).extractLsb' 8 8).zeroExtend 16) ((crc16 f).extractLsb' 8 8) = 0x0000#16) ∧
  crc16 [0x01#8, 0x03#8, 0x00#8, 0x00#8, 0x00#8, 0x0A#8, 0xCD#8, 0xC5#8] = 0x0606#16

/-- No other pair of bytes completes a range: the trailer is the only one with checksum zero (a consequence of R80; "the
only order for which the running checksum returns to zero", 20_memory.md R33). -/
def Obligations.OnlyTheTrailerCompletesARange : Prop :=
  ∀ (f : List Byte) (lo hi : Byte),
    crc16 (f ++ [lo, hi]) = 0x0000#16 ↔ lo = (crc16 f).extractLsb' 0 8 ∧ hi = (crc16 f).extractLsb' 8 8

/-- `crc_step` is linear over XOR, and a bijection on the accumulator for each byte (R84, which the spec derives from
R80). -/
def Obligations.CrcStepIsLinearAndBijective : Prop :=
  (∀ (x y : Crc) (b d : Byte), crcStep (x ^^^ y) (b ^^^ d) = crcStep x b ^^^ crcStep y d) ∧
  (∀ b : Byte, Function.Bijective fun acc : Crc => crcStep acc b)

/-- The table form of `crc_step` (R85, which the spec derives from R84):
`crc_step(acc, b) = (acc >> 8) ^ T[(acc ^ b)[7:0]]`, `T[x] = crc_step(0, x)`. -/
def Obligations.CrcStepHasATableForm : Prop :=
  ∀ (acc : Crc) (b : Byte),
    crcStep acc b = (acc >>> 8) ^^^ crcStep 0x0000#16 (acc.extractLsb' 0 8 ^^^ b)

/-! ## The commands: system and CRC16 Engine -/

/-- NOP, R150: its encoding, its response, nothing else. -/
def Obligations.NopOnlyAnswers : Prop :=
  EncodedAs 0x00#8 0xFFFFFFFF#32 (fun _ => .nop) ∧
  ∀ s : State, exec .nop s = .next { s with rsp := s.rsp ++ [0x00000000#32] }

/-- STATUS, R151 with the layout of R17: its encoding, the fields of its response, nothing else. -/
def Obligations.StatusReturnsTheStatusWord : Prop :=
  EncodedAs 0x01#8 0xFFFFFFFF#32 (fun _ => .status) ∧
  ∀ s : State, s.size ≤ Config.capacity →
    ∃ w : RspWord, exec .status s = .next { s with rsp := s.rsp ++ [w] } ∧
      w.extractLsb' 24 8 = 0x00#8 ∧ w.extractLsb' 14 10 = 0#10 ∧
      w.getLsbD 13 = decide (s.size = 0) ∧ w.getLsbD 12 = decide (s.size = Config.capacity) ∧
      (w.extractLsb' 0 12).toNat = s.size

/-- SRST (43_system_commands.md R152): its encoding, `SIZE` 0 and `UACC` 0xFFFF, the output streams untouched but for
its response, which is all that sets it apart from the reset event. That `BUF`, unspecified after reset (R20), keeps its
bytes is the model's choice (entry 4). -/
def Obligations.SoftResetReachesTheResetState : Prop :=
  EncodedAs 0x02#8 0xFFFFFFFF#32 (fun _ => .srst) ∧
  ∀ s : State,
    exec .srst s = .next { s with size := 0, uacc := 0xFFFF#16, rsp := s.rsp ++ [0x00000000#32] } ∧
    exec .srst s = .next { applyReset s with rsp := s.rsp ++ [0x00000000#32] }

/-- CRC.INIT, R86. -/
def Obligations.CrcInitStartsAChecksum : Prop :=
  EncodedAs 0x10#8 0xFFFFFFFF#32 (fun _ => .crcInit) ∧
  ∀ s : State, exec .crcInit s = .next { s with uacc := 0xFFFF#16, rsp := s.rsp ++ [0x00000000#32] }

/-- CRC.BYTE, R87. -/
def Obligations.CrcByteFoldsOneByte : Prop :=
  EncodedAs 0x11#8 0xFFFFFF00#32 (fun w => .crcByte (w.extractLsb' 0 8)) ∧
  ∀ (s : State) (b : Byte),
    exec (.crcByte b) s = .next { s with uacc := crcStep s.uacc b, rsp := s.rsp ++ [0x00000000#32] }

/-- CRC.READ, R88. -/
def Obligations.CrcReadReturnsTheAccumulator : Prop :=
  EncodedAs 0x12#8 0xFFFFFFFF#32 (fun _ => .crcRead) ∧
  ∀ s : State, exec .crcRead s = .next { s with rsp := s.rsp ++ [okCrc s.uacc] }

/-- CRC.EMIT, R89: low byte first, high byte second; `UACC` unchanged. -/
def Obligations.CrcEmitWritesLowThenHigh : Prop :=
  EncodedAs 0x13#8 0xFFFFFFFF#32 (fun _ => .crcEmit) ∧
  ∀ s : State, exec .crcEmit s =
    .next { s with
      tx := s.tx ++ [s.uacc.extractLsb' 0 8, s.uacc.extractLsb' 8 8], rsp := s.rsp ++ [0x00000000#32] }

/-- CRC.RANGE, R90: the checksum of a range inside the valid bytes, or ERR_OPERAND; nothing else changes. -/
def Obligations.CrcRangeReturnsTheChecksumOfARange : Prop :=
  EncodedAs 0x14#8 0xFF000000#32
    (fun w => .crcRange (w.extractLsb' 12 12).toNat (w.extractLsb' 0 12).toNat) ∧
  ∀ (s : State) (off len : Nat), s.Inv →
    exec (.crcRange off len) s =
      if s.size < off + len then .next { s with rsp := s.rsp ++ [0xE3000000#32] }
      else .next { s with rsp := s.rsp ++ [okCrc (crc16 ((s.valid.drop off).take len))] }

/-! ## The commands: Frame Buffer -/

/-- BUF.PUSH, R100: with room, the byte stored at index `SIZE`, every other index as before, `SIZE + 1`, count 1; full,
nothing changes and the count is 0. -/
def Obligations.PushAppendsOneByteIfThereIsRoom : Prop :=
  EncodedAs 0x20#8 0xFFFFFF00#32 (fun w => .bufPush (w.extractLsb' 0 8)) ∧
  ∀ (s : State) (b : Byte), s.Inv →
    (s.size < Config.capacity →
      ∃ m, exec (.bufPush b) s =
          .next { s with mem := m, size := s.size + 1, rsp := s.rsp ++ [0x00000001#32] } ∧
        Memory.read m s.size = b ∧ ∀ a, a ≠ s.size → Memory.read m a = Memory.read s.mem a) ∧
    (s.size = Config.capacity →
      exec (.bufPush b) s = .next { s with rsp := s.rsp ++ [0x00000000#32] })

/-- BUF.COMPACT, R101: the bytes from `from` on shifted to index 0, `SIZE - from`, the new `SIZE` in the response, no
record; every index at and above the new `SIZE` as before; ERR_OPERAND when `from > SIZE`. -/
def Obligations.CompactDropsTheOldestBytes : Prop :=
  EncodedAs 0x21#8 0xFFFFF000#32 (fun w => .bufCompact (w.extractLsb' 0 12).toNat) ∧
  ∀ (s : State) (start : Nat), s.Inv →
    (start ≤ s.size →
      ∃ m, exec (.bufCompact start) s =
          .next { s with mem := m, size := s.size - start, rsp := s.rsp ++ [okCount (s.size - start)] } ∧
        ∀ a, Memory.read m a =
          if a < s.size - start then Memory.read s.mem (start + a) else Memory.read s.mem a) ∧
    (s.size < start → exec (.bufCompact start) s = .next { s with rsp := s.rsp ++ [0xE3000000#32] })

/-- BUF.RESET, R102: `SIZE` 0, the bytes not cleared, no record. -/
def Obligations.BufferResetEmptiesTheBuffer : Prop :=
  EncodedAs 0x22#8 0xFFFFFFFF#32 (fun _ => .bufReset) ∧
  ∀ s : State, exec .bufReset s = .next { s with size := 0, rsp := s.rsp ++ [0x00000000#32] }

/-- BUF.READ, R103: a valid byte, or ERR_OPERAND; nothing else changes. -/
def Obligations.BufferReadReturnsAValidByte : Prop :=
  EncodedAs 0x23#8 0xFFFFF000#32 (fun w => .bufRead (w.extractLsb' 0 12).toNat) ∧
  ∀ (s : State) (idx : Nat), s.Inv →
    exec (.bufRead idx) s =
      if idx < s.size then .next { s with rsp := s.rsp ++ [okByte (Memory.read s.mem idx)] }
      else .next { s with rsp := s.rsp ++ [0xE3000000#32] }

/-! ## The commands: Frame Synchronizer -/

/-- SYNC.SCAN on a buffer that holds a frame (R121, R126): with the range that is first in the sense of R125, which the
spec derives from R121, the noise record if there is noise, then the frame record, then the compaction, then FOUND with
the indices before it. -/
def Obligations.ScanConfirmsTheFirstFrame : Prop :=
  EncodedAs 0x30#8 0xFFFFFFFF#32 (fun _ => .syncScan) ∧
  ∀ (s : State) (start stop : Nat), s.Inv → IsFirstFrame s.valid start stop →
    ∃ m, exec .syncScan s =
        .next { s with
          mem := m
          size := s.size - stop
          rpt := s.rpt ++ (if 0 < start then [⟨.noise, s.valid.take start⟩] else []) ++
            [⟨.frame, (s.valid.drop start).take (stop - start)⟩]
          rsp := s.rsp ++ [foundWord start stop] } ∧
      ∀ a, Memory.read m a =
        if a < s.size - stop then Memory.read s.mem (stop + a) else Memory.read s.mem a

/-- SYNC.SCAN on a buffer without a frame, R127: NOFRAME at every `SIZE`, a full buffer included, and nothing else
changes; the same again when it is repeated. -/
def Obligations.ScanWithoutAFrameChangesNothing : Prop :=
  ∀ s : State, s.Inv → NoFrame s.valid →
    exec .syncScan s = .next { s with rsp := s.rsp ++ [0x02000000#32] } ∧
    exec .syncScan { s with rsp := s.rsp ++ [0x02000000#32] } =
      .next { s with rsp := s.rsp ++ [0x02000000#32, 0x02000000#32] }

/-- "First match wins" (R125, which the spec derives from R121): of every list of bytes it is true that it holds exactly
one first frame or none, so that the two statements above cover every buffer. -/
def Obligations.FirstFrameIsUniqueOrAbsent : Prop :=
  ∀ bytes : List Byte,
    ((∃ start stop, IsFirstFrame bytes start stop) ∨ NoFrame bytes) ∧
    (∀ a b c d, IsFirstFrame bytes a b → IsFirstFrame bytes c d → a = c ∧ b = d) ∧
    (∀ a b, IsFirstFrame bytes a b → ¬ NoFrame bytes)

/-- The shortest confirmable frame (R129, which the spec derives by enumeration): every confirmed frame has at least 4
bytes; every address and allowed function code followed by their CRC16 is confirmed as one of 4; the only two bytes with
checksum zero are `FF FF`. -/
def Obligations.ConfirmedFramesHaveFourBytesOrMore : Prop :=
  (∀ (bytes : List Byte) (start stop : Nat), IsFirstFrame bytes start stop → start + 4 ≤ stop) ∧
  (∀ x y : Byte, y ∈ [0x03#8, 0x06#8, 0x16#8, 0x83#8, 0x86#8, 0x96#8] →
    IsFirstFrame [x, y, (crc16 [x, y]).extractLsb' 0 8, (crc16 [x, y]).extractLsb' 8 8] 0 4) ∧
  (∀ x y : Byte, crc16 [x, y] = 0x0000#16 ↔ x = 0xFF#8 ∧ y = 0xFF#8)

/-- R52: the six byte values that make a candidate plausible. -/
def Obligations.PlausibleFunctionCodes : Prop :=
  ∀ b : Byte, plausible b = true ↔ b ∈ [0x03#8, 0x06#8, 0x16#8, 0x83#8, 0x86#8, 0x96#8]

/-- SYNC.EVICT, R130: a full buffer is reported whole as noise and emptied; any other is left alone. -/
def Obligations.EvictDiscardsAFullBuffer : Prop :=
  EncodedAs 0x31#8 0xFFFFFFFF#32 (fun _ => .syncEvict) ∧
  ∀ s : State, s.Inv →
    (s.size = Config.capacity →
      exec .syncEvict s = .next { s with
        size := 0, rpt := s.rpt ++ [⟨.noise, s.valid⟩], rsp := s.rsp ++ [discardedWord Config.capacity] }) ∧
    (s.size ≠ Config.capacity →
      exec .syncEvict s = .next { s with rsp := s.rsp ++ [0x03000000#32] })

/-- SYNC.FLUSH, R131: every byte held is reported as noise and dropped, at every `SIZE`; no record from an empty
buffer. -/
def Obligations.FlushDiscardsEverything : Prop :=
  EncodedAs 0x32#8 0xFFFFFFFF#32 (fun _ => .syncFlush) ∧
  ∀ s : State, s.Inv →
    exec .syncFlush s = .next { s with
      size := 0
      rpt := s.rpt ++ (if 0 < s.size then [⟨.noise, s.valid⟩] else [])
      rsp := s.rsp ++ [discardedWord s.size] }

/-! ## Rules over all commands -/

/-- Each element of the state has its writers and no others: `UACC` (10_state.md R12), `BUF` (R10), `SIZE` (R11), `TX`
(30_encoding.md R61), `RPT` (41_frame_buffer.md R104), and no command touches what is still in `CMD`. -/
def Obligations.EachElementHasItsWriters : Prop :=
  ∀ (i : Instr) (s t : State), exec i s = .next t →
    (i ≠ .crcInit → (∀ b, i ≠ .crcByte b) → i ≠ .srst → t.uacc = s.uacc) ∧
    ((∀ b, i ≠ .bufPush b) → (∀ n, i ≠ .bufCompact n) → i ≠ .syncScan → t.mem = s.mem) ∧
    ((∀ b, i ≠ .bufPush b) → (∀ n, i ≠ .bufCompact n) → i ≠ .bufReset → i ≠ .srst → i ≠ .syncScan →
      i ≠ .syncEvict → i ≠ .syncFlush → t.size = s.size) ∧
    (i ≠ .crcEmit → t.tx = s.tx) ∧
    (i ≠ .syncScan → i ≠ .syncEvict → i ≠ .syncFlush → t.rpt = s.rpt) ∧
    t.cmd = s.cmd

/-- Reading has no side effect (20_memory.md R37): BUF.READ, CRC.RANGE, CRC.READ and STATUS only append their response,
and repeating one of them gives the same response. -/
def Obligations.ReadingHasNoSideEffect : Prop :=
  ∀ (i : Instr) (s t : State),
    ((∃ n, i = .bufRead n) ∨ (∃ off len, i = .crcRange off len) ∨ i = .crcRead ∨ i = .status) →
    exec i s = .next t →
    ∃ w, t = { s with rsp := s.rsp ++ [w] } ∧ exec i t = .next { s with rsp := s.rsp ++ [w, w] }

/-- No byte is lost or reordered (20_memory.md R42, 44_host_macros_and_collaborators.md R168, both derived by the spec):
unless the host drops bytes itself with BUF.COMPACT, BUF.RESET or SRST, the bytes reported so far followed by the bytes
held are exactly the bytes accepted so far, in arrival order; a push adds its byte if there is room, and nothing else
adds or takes one. -/
def Obligations.AcceptedBytesAreReportedOnceInOrder : Prop :=
  ∀ (i : Instr) (s t : State), s.Inv → (∀ n, i ≠ .bufCompact n) → i ≠ .bufReset → i ≠ .srst →
    exec i s = .next t →
    t.account = s.account ++
      match i with
      | .bufPush b => if s.size < Config.capacity then [b] else []
      | _ => []

/-- Stale bytes and everything else outside the view of 10_state.md R10 and R21 are unobservable: two states that differ
in them only stay so, and answer every input alike. -/
def Obligations.StaleBytesAreInvisible : Prop :=
  ∀ s t s' : State, s.Inv → t.Inv → s.SameView t → step s = .next s' →
    ∃ t', step t = .next t' ∧ s'.SameView t'

/-- Commands execute one at a time in the order of `CMD` (20_memory.md R39). As many steps as there are words run exactly the commands
of those words, one after another, and leave what stands behind them in the input. -/
def Obligations.CommandsRunInTheOrderOfTheInput : Prop :=
  ∀ (is : List Instr) (s : State) (rest : List HostInput), (∀ i ∈ is, i.wf = true) →
    Host.Core.run Sys2Proof.core is.length
        ({ s with cmd := is.map (fun i => .command (encode i)) ++ rest } : State) =
      runCommands is { s with cmd := rest }

/-! ## The host's macros -/

/-- APPEND (R160, which the spec derives from R100): the prefix that fits is accepted, the count is its length, and only
`BUF`, `SIZE` and `RSP` change. -/
def Obligations.AppendAcceptsThePrefixThatFits : Prop :=
  ∀ (s : State) (bytes : List Byte), s.Inv →
    ∃ t, runCommands (appendCommands bytes) s = .next t ∧
      t.valid = s.valid ++ bytes.take (Config.capacity - s.size) ∧
      appendedCount bytes.length t = min bytes.length (Config.capacity - s.size) ∧
      t.size = s.size + min bytes.length (Config.capacity - s.size) ∧
      t.uacc = s.uacc ∧ t.rpt = s.rpt ∧ t.tx = s.tx ∧ t.cmd = s.cmd ∧ t.Inv

/-- STEP, R161: FOUND and nothing more; NOFRAME and DISCARDED 0 with the buffer unchanged; NOFRAME and DISCARDED
CAPACITY with everything reported as noise and the buffer empty. -/
def Obligations.StepMacroHasThreeOutcomes : Prop :=
  ∀ s : State, s.Inv →
    (∀ start stop, IsFirstFrame s.valid start stop → stepMacro s = exec .syncScan s) ∧
    (NoFrame s.valid → s.size < Config.capacity →
      stepMacro s = .next { s with rsp := s.rsp ++ [0x02000000#32, 0x03000000#32] }) ∧
    (NoFrame s.valid → s.size = Config.capacity →
      stepMacro s = .next { s with
        size := 0
        rpt := s.rpt ++ [⟨.noise, s.valid⟩]
        rsp := s.rsp ++ [0x02000000#32, discardedWord Config.capacity] })

/-- INGEST always completes and never leaves the buffer full (R162, which the spec derives from R161 and R129). -/
def Obligations.IngestNeverLeavesTheBufferFull : Prop :=
  ∀ (s : State) (bytes : List Byte), s.Inv →
    ∃ t, ingest bytes s = .next t ∧ t.Inv ∧ t.size < Config.capacity

/-- CRC16 (R165, which the spec derives from R86 to R88): the last response carries the checksum of the bytes; only
`UACC` and `RSP` change. -/
def Obligations.Crc16MacroReturnsTheChecksum : Prop :=
  ∀ (s : State) (bytes : List Byte),
    runCommands (crc16Commands bytes) s =
      .next { s with
        uacc := crc16 bytes
        rsp := s.rsp ++ List.replicate (bytes.length + 1) 0x00000000#32 ++ [okCrc (crc16 bytes)] }

/-- FRAME.TX (44_host_macros_and_collaborators.md R166, by the spec's decision D6): two bytes on `TX` that complete the
payload to a range with checksum zero; only `UACC`, `TX` and `RSP` change. -/
def Obligations.FrameTxCompletesTheFrame : Prop :=
  ∀ (s : State) (bytes : List Byte), ∃ lo hi : Byte,
    runCommands (frameTxCommands bytes) s =
      .next { s with
        uacc := crc16 bytes
        tx := s.tx ++ [lo, hi]
        rsp := s.rsp ++ List.replicate (bytes.length + 2) 0x00000000#32 } ∧
    crc16 bytes = hi ++ lo ∧ crc16 (bytes ++ [lo, hi]) = 0x0000#16

/-- The result depends on how the stream is cut into chunks (70_reset_and_hazards.md R227, which the spec derives; the
bytes of 95_test_vectors.md V33 and V34): the same bytes ingested in one chunk and in two give different reports. -/
def Obligations.ReportsDependOnTheChunks : Prop :=
  ∃ (xs ys : List Byte) (t u v : State),
    ingest (xs ++ ys) State.reset = .next t ∧ ingest xs State.reset = .next u ∧ ingest ys u = .next v ∧
    t.rpt ≠ v.rpt

/-- READCYCLE, the reference host's loop as the model writes it (44_host_macros_and_collaborators.md R164, entry 11),
from a buffer that is not full: it completes; no byte that arrived is lost (70_reset_and_hazards.md R229): reported,
held, or still in the transport, in order; the buffer is not left full; a cycle that timed out leaves it empty. -/
def Obligations.ReadCycleLosesNoByte : Prop :=
  ∀ (polls : List Poll) (h : ReadLoop), h.core.Inv → h.core.size < Config.capacity →
    ∃ (g : ReadLoop) (ended : Option CycleEnd) (used left : List Poll),
      readCycle polls h = .next (g, ended, left) ∧ polls = used ++ left ∧
      g.core.account ++ g.pending = h.core.account ++ h.pending ++ (used.map Poll.arrivals).flatten ∧
      g.core.Inv ∧ g.core.size < Config.capacity ∧ (ended = some .timedOut → g.core.size = 0)

/-- "forever: READCYCLE" (44_host_macros_and_collaborators.md R164, entry 11): one cycle, and when it has ended the same
again with the block, the transport's buffer and the looks it left, until the looks run out. -/
def Obligations.ReadForeverRepeatsTheCycle : Prop :=
  ∀ (polls : List Poll) (h : ReadLoop),
    readForever polls h = andThen (readCycle polls h) fun r =>
      match r.2.1 with
      | some e => andThen (readForever r.2.2 r.1) fun q => .next (q.1, e :: q.2)
      | none => .next (r.1, [])

/-- The reference host's loop run for as long as it looks (R164, entry 11), from a buffer that is not full: it
completes; no byte that arrived is lost (70_reset_and_hazards.md R229): reported, held, or still in the transport, in
order; the buffer is not left full. -/
def Obligations.ReadForeverLosesNoByte : Prop :=
  ∀ (polls : List Poll) (h : ReadLoop), h.core.Inv → h.core.size < Config.capacity →
    ∃ (g : ReadLoop) (ends : List CycleEnd),
      readForever polls h = .next (g, ends) ∧
      g.core.account ++ g.pending = h.core.account ++ h.pending ++ (polls.map Poll.arrivals).flatten ∧
      g.core.Inv ∧ g.core.size < Config.capacity

/-- The colour registry (R169, outside the block by 00_scope.md R3): an address seen keeps its colour whatever is seen
later; the first sighting of an address when `k` others were seen gives the palette's colour `k mod length`. -/
def Obligations.ColorOfAnAddressIsStable : Prop :=
  ∀ (palette : List Nat) (r : Registry) (a b : Byte),
    (a ∈ r.seen →
      ((r.colorFor palette b).2.colorFor palette a).1 = (r.colorFor palette a).1) ∧
    (a ∉ r.seen → (r.colorFor palette a).1 = palette[r.seen.length % palette.length]? ∧
      ((r.colorFor palette a).2.colorFor palette a).1 = (r.colorFor palette a).1)
end

