-- ==== Sys2Proof/Laws/Crc.lean ====
section
/-! SUPPORT. How a checksum is extended byte by byte (40_crc16_engine.md R81), and the inner loop of the scan as what
it computes (42_frame_synchronizer.md R124). -/

namespace Sys2Proof.Machine

@[simp] theorem crcBits_zero (t : Crc) : crcBits 0 t = t := rfl
@[simp] theorem crcBits_succ (n : Nat) (t : Crc) : crcBits (n + 1) t = crcBits n (crcBit t) := rfl

/-- The fold can be cut anywhere. -/
theorem foldl_crcStep_append (xs ys : List Byte) (acc : Crc) :
    (xs ++ ys).foldl crcStep acc = ys.foldl crcStep (xs.foldl crcStep acc) := by
  simp [List.foldl_append]

/-- One more byte of a range folded. -/
theorem foldl_crcStep_take_succ {bytes : List Byte} {start i : Nat} (hsi : start ≤ i) (hi : i < bytes.length)
    (acc : Crc) :
    ((bytes.drop start).take (i + 1 - start)).foldl crcStep acc =
      crcStep (((bytes.drop start).take (i - start)).foldl crcStep acc) bytes[i] := by
  have h : i + 1 - start = i - start + 1 := by omega
  have hlt : i - start < (bytes.drop start).length := by simp; omega
  have hget : (bytes.drop start)[i - start] = bytes[i] := by
    simp [show start + (i - start) = i by omega]
  rw [h, List.take_succ_eq_append_getElem hlt, List.foldl_append, hget]
  rfl

@[simp] theorem isZero_eq_true (c : Crc) : isZero c = true ↔ c = 0x0000#16 := by simp [isZero]

end Sys2Proof.Machine
end

