-- ==== Sys2Proof/Laws/PerInstr.lean ====
section
/-! SUPPORT. The family EncodesItsRow: the word of a command has its row's `op` byte and its row's `match` under its
row's `mask` (30_encoding.md R56), one lemma per constructor of `Instr`. -/

namespace Sys2Proof.Laws

/-- The `op` field of a packed word. -/
theorem opField_packFields (op : BitVec 8) (a b : Nat) : opField (packFields op a b) = op := by
  apply BitVec.eq_of_toNat_eq
  have h1 := (BitVec.ofNat 12 a ++ BitVec.ofNat 12 b : BitVec 24).isLt
  have h2 := op.isLt
  simp only [opField, packFields, BitVec.extractLsb'_toNat, BitVec.toNat_append op]
  rw [Nat.shiftRight_eq_div_pow, Nat.shiftLeft_eq, ← Nat.shiftLeft_eq, Nat.shiftLeft_add_eq_or_of_lt h1 op.toNat |>.symm,
    Nat.shiftLeft_eq]
  omega

/-- A mask of the `op` byte alone. -/
theorem packFields_and_opMask (op : BitVec 8) (a b : Nat) :
    packFields op a b &&& 0xFF000000#32 = op ++ 0#24 := by
  have h : (0xFF000000#32 : BitVec 32) = (0xFF#8 ++ 0#24 : BitVec 32) := by decide
  rw [packFields, h, BitVec.and_append, BitVec.and_zero]
  congr 1
  exact BitVec.and_allOnes

/-- A mask of the `op` byte and field `a`, `a` being 0. -/
theorem packFields_and_opAMask (op : BitVec 8) (b : Nat) :
    packFields op 0 b &&& 0xFFFFF000#32 = op ++ 0#24 := by
  have h : (0xFFFFF000#32 : BitVec 32) = (0xFF#8 ++ (0xFFF#12 ++ 0#12 : BitVec 24) : BitVec 32) := by decide
  rw [packFields, h, BitVec.and_append, BitVec.and_append, BitVec.and_zero]
  have h0 : ((BitVec.ofNat 12 0 &&& 0xFFF#12) ++ 0#12 : BitVec 24) = 0#24 := by decide
  rw [h0]
  congr 1
  exact BitVec.and_allOnes

/-- A mask of everything but a byte operand, `a` being 0 and `b` a byte. -/
theorem packFields_and_byteMask (op byte : BitVec 8) :
    packFields op 0 byte.toNat &&& 0xFFFFFF00#32 = op ++ 0#24 := by
  have h : (0xFFFFFF00#32 : BitVec 32) = (0xFF#8 ++ 0xFFFF00#24 : BitVec 32) := by decide
  rw [packFields, h, BitVec.and_append]
  have h0 : ∀ b : BitVec 8,
      ((BitVec.ofNat 12 0 ++ BitVec.ofNat 12 b.toNat : BitVec 24) &&& 0xFFFF00#24) = 0#24 := by decide
  rw [h0]
  congr 1
  exact BitVec.and_allOnes

/-- A row's `match` word is its `op` byte above 24 zero bits (R54, R56). -/
theorem op_shifted_eq_pattern (o : Opcode) : (o.code ++ 0#24 : CmdWord) = o.pattern := by
  cases o <;> decide

end Sys2Proof.Laws

namespace Sys2Proof.Laws.EncodesItsRow

/-- The word of `i` is one of its row's words. -/
def Statement (i : Instr) : Prop :=
  opField (encode i) = i.opcode.code ∧ encode i &&& i.opcode.mask = i.opcode.pattern

theorem nop : Statement .nop := ⟨by decide, by decide⟩
theorem status : Statement .status := ⟨by decide, by decide⟩
theorem srst : Statement .srst := ⟨by decide, by decide⟩
theorem crcInit : Statement .crcInit := ⟨by decide, by decide⟩
theorem crcByte (byte : Byte) : Statement (.crcByte byte) :=
  ⟨opField_packFields _ _ _,
    (packFields_and_byteMask _ _).trans (op_shifted_eq_pattern _)⟩
theorem crcRead : Statement .crcRead := ⟨by decide, by decide⟩
theorem crcEmit : Statement .crcEmit := ⟨by decide, by decide⟩
theorem crcRange (off len : Nat) : Statement (.crcRange off len) :=
  ⟨opField_packFields _ _ _,
    (packFields_and_opMask _ _ _).trans (op_shifted_eq_pattern _)⟩
theorem bufPush (byte : Byte) : Statement (.bufPush byte) :=
  ⟨opField_packFields _ _ _,
    (packFields_and_byteMask _ _).trans (op_shifted_eq_pattern _)⟩
theorem bufCompact (start : Nat) : Statement (.bufCompact start) :=
  ⟨opField_packFields _ _ _,
    (packFields_and_opAMask _ _).trans (op_shifted_eq_pattern _)⟩
theorem bufReset : Statement .bufReset := ⟨by decide, by decide⟩
theorem bufRead (idx : Nat) : Statement (.bufRead idx) :=
  ⟨opField_packFields _ _ _,
    (packFields_and_opAMask _ _).trans (op_shifted_eq_pattern _)⟩
theorem syncScan : Statement .syncScan := ⟨by decide, by decide⟩
theorem syncEvict : Statement .syncEvict := ⟨by decide, by decide⟩
theorem syncFlush : Statement .syncFlush := ⟨by decide, by decide⟩

end Sys2Proof.Laws.EncodesItsRow
end

