-- ==== Sys2Proof/Laws/Encoding.lean ====
section
/-! SUPPORT. The fields of a packed word, a word put together again from its fields, and the lookup of a row by its
`op` byte (30_encoding.md R54 to R56). -/

namespace Sys2Proof.Laws

/-- A packed word as a number. -/
theorem packFields_toNat (op : BitVec 8) (a b : Nat) :
    (packFields op a b).toNat = op.toNat * 2 ^ 24 + a % 4096 * 4096 + b % 4096 := by
  have hb := (BitVec.ofNat 12 b).isLt
  have hlow : (BitVec.ofNat 12 a ++ BitVec.ofNat 12 b : BitVec 24).toNat = a % 4096 * 4096 + b % 4096 := by
    rw [BitVec.toNat_append, ← Nat.shiftLeft_add_eq_or_of_lt hb, Nat.shiftLeft_eq]; simp
  rw [packFields, BitVec.toNat_append, ← Nat.shiftLeft_add_eq_or_of_lt (BitVec.isLt _), Nat.shiftLeft_eq, hlow]
  omega

/-- Field `a` of a packed word. -/
theorem aField_packFields (op : BitVec 8) (a b : Nat) : aField (packFields op a b) = a % 4096 := by
  simp only [aField, BitVec.extractLsb'_toNat, packFields_toNat, Nat.shiftRight_eq_div_pow]; omega

/-- Field `b` of a packed word. -/
theorem bField_packFields (op : BitVec 8) (a b : Nat) : bField (packFields op a b) = b % 4096 := by
  simp only [bField, BitVec.extractLsb'_toNat, packFields_toNat, Nat.shiftRight_eq_div_pow]; omega

/-- The byte operand of a packed word. -/
theorem byteField_packFields (op : BitVec 8) (a : Nat) (byte : Byte) :
    byteField (packFields op a byte.toNat) = byte := by
  apply BitVec.eq_of_toNat_eq
  have := byte.isLt
  simp only [byteField, BitVec.extractLsb'_toNat, packFields_toNat, Nat.shiftRight_eq_div_pow]; omega

/-- A word is its three fields packed. -/
theorem packFields_fields (w : CmdWord) : packFields (opField w) (aField w) (bField w) = w := by
  apply BitVec.eq_of_toNat_eq
  have := w.isLt
  simp only [packFields_toNat, opField, aField, bField, BitVec.extractLsb'_toNat, Nat.shiftRight_eq_div_pow]; omega

/-- An operand that fits its field. -/
theorem fitsField_iff (n : Nat) : fitsField n = true ↔ n < 4096 := decide_eq_true_iff

/-- A row is found by its `op` byte. -/
@[simp] theorem opcodeOf_code (o : Opcode) : opcodeOf o.code = some o := by cases o <;> decide

/-- A row that is found has that `op` byte. -/
theorem code_of_opcodeOf {c : BitVec 8} {o : Opcode} (h : opcodeOf c = some o) : o.code = c := by
  have := List.find?_some h
  simpa using this

/-- The decoder on a word whose `op` byte is a row's. -/
theorem decode_of_opField {w : CmdWord} {o : Opcode} (h : opField w = o.code) :
    decode w = if w &&& o.mask = o.pattern then .ok (assemble o w) else .error .reservedBits := by
  simp [decode, h]

end Sys2Proof.Laws
end

