-- ==== Sys2Proof/Laws/State.lean ====
section
/-! SUPPORT. One lemma per field per update of `State`, each true by `rfl`, so that no later proof unfolds a record
update; the same for `respond` and the reset event. -/

namespace Sys2Proof.Machine

/-! `setMem` -/

@[simp] theorem State.setMem_mem (m : List Host.Cell) (s : State) : (s.setMem m).mem = m := rfl
@[simp] theorem State.setMem_size (m : List Host.Cell) (s : State) : (s.setMem m).size = s.size := rfl
@[simp] theorem State.setMem_uacc (m : List Host.Cell) (s : State) : (s.setMem m).uacc = s.uacc := rfl
@[simp] theorem State.setMem_cmd (m : List Host.Cell) (s : State) : (s.setMem m).cmd = s.cmd := rfl
@[simp] theorem State.setMem_rsp (m : List Host.Cell) (s : State) : (s.setMem m).rsp = s.rsp := rfl
@[simp] theorem State.setMem_rpt (m : List Host.Cell) (s : State) : (s.setMem m).rpt = s.rpt := rfl
@[simp] theorem State.setMem_tx (m : List Host.Cell) (s : State) : (s.setMem m).tx = s.tx := rfl

/-! `setSize` -/

@[simp] theorem State.setSize_mem (n : Nat) (s : State) : (s.setSize n).mem = s.mem := rfl
@[simp] theorem State.setSize_size (n : Nat) (s : State) : (s.setSize n).size = n := rfl
@[simp] theorem State.setSize_uacc (n : Nat) (s : State) : (s.setSize n).uacc = s.uacc := rfl
@[simp] theorem State.setSize_cmd (n : Nat) (s : State) : (s.setSize n).cmd = s.cmd := rfl
@[simp] theorem State.setSize_rsp (n : Nat) (s : State) : (s.setSize n).rsp = s.rsp := rfl
@[simp] theorem State.setSize_rpt (n : Nat) (s : State) : (s.setSize n).rpt = s.rpt := rfl
@[simp] theorem State.setSize_tx (n : Nat) (s : State) : (s.setSize n).tx = s.tx := rfl

/-! `setUacc` -/

@[simp] theorem State.setUacc_mem (c : Crc) (s : State) : (s.setUacc c).mem = s.mem := rfl
@[simp] theorem State.setUacc_size (c : Crc) (s : State) : (s.setUacc c).size = s.size := rfl
@[simp] theorem State.setUacc_uacc (c : Crc) (s : State) : (s.setUacc c).uacc = c := rfl
@[simp] theorem State.setUacc_cmd (c : Crc) (s : State) : (s.setUacc c).cmd = s.cmd := rfl
@[simp] theorem State.setUacc_rsp (c : Crc) (s : State) : (s.setUacc c).rsp = s.rsp := rfl
@[simp] theorem State.setUacc_rpt (c : Crc) (s : State) : (s.setUacc c).rpt = s.rpt := rfl
@[simp] theorem State.setUacc_tx (c : Crc) (s : State) : (s.setUacc c).tx = s.tx := rfl

/-! `setCmd` -/

@[simp] theorem State.setCmd_mem (c : List HostInput) (s : State) : (s.setCmd c).mem = s.mem := rfl
@[simp] theorem State.setCmd_size (c : List HostInput) (s : State) : (s.setCmd c).size = s.size := rfl
@[simp] theorem State.setCmd_uacc (c : List HostInput) (s : State) : (s.setCmd c).uacc = s.uacc := rfl
@[simp] theorem State.setCmd_cmd (c : List HostInput) (s : State) : (s.setCmd c).cmd = c := rfl
@[simp] theorem State.setCmd_rsp (c : List HostInput) (s : State) : (s.setCmd c).rsp = s.rsp := rfl
@[simp] theorem State.setCmd_rpt (c : List HostInput) (s : State) : (s.setCmd c).rpt = s.rpt := rfl
@[simp] theorem State.setCmd_tx (c : List HostInput) (s : State) : (s.setCmd c).tx = s.tx := rfl

/-! `addRsp` -/

@[simp] theorem State.addRsp_mem (w : RspWord) (s : State) : (s.addRsp w).mem = s.mem := rfl
@[simp] theorem State.addRsp_size (w : RspWord) (s : State) : (s.addRsp w).size = s.size := rfl
@[simp] theorem State.addRsp_uacc (w : RspWord) (s : State) : (s.addRsp w).uacc = s.uacc := rfl
@[simp] theorem State.addRsp_cmd (w : RspWord) (s : State) : (s.addRsp w).cmd = s.cmd := rfl
@[simp] theorem State.addRsp_rsp (w : RspWord) (s : State) : (s.addRsp w).rsp = s.rsp ++ [w] := rfl
@[simp] theorem State.addRsp_rpt (w : RspWord) (s : State) : (s.addRsp w).rpt = s.rpt := rfl
@[simp] theorem State.addRsp_tx (w : RspWord) (s : State) : (s.addRsp w).tx = s.tx := rfl

/-! `addRpt` -/

@[simp] theorem State.addRpt_mem (r : Report) (s : State) : (s.addRpt r).mem = s.mem := rfl
@[simp] theorem State.addRpt_size (r : Report) (s : State) : (s.addRpt r).size = s.size := rfl
@[simp] theorem State.addRpt_uacc (r : Report) (s : State) : (s.addRpt r).uacc = s.uacc := rfl
@[simp] theorem State.addRpt_cmd (r : Report) (s : State) : (s.addRpt r).cmd = s.cmd := rfl
@[simp] theorem State.addRpt_rsp (r : Report) (s : State) : (s.addRpt r).rsp = s.rsp := rfl
@[simp] theorem State.addRpt_rpt (r : Report) (s : State) : (s.addRpt r).rpt = s.rpt ++ [r] := rfl
@[simp] theorem State.addRpt_tx (r : Report) (s : State) : (s.addRpt r).tx = s.tx := rfl

/-! `addTx` -/

@[simp] theorem State.addTx_mem (bs : List Byte) (s : State) : (s.addTx bs).mem = s.mem := rfl
@[simp] theorem State.addTx_size (bs : List Byte) (s : State) : (s.addTx bs).size = s.size := rfl
@[simp] theorem State.addTx_uacc (bs : List Byte) (s : State) : (s.addTx bs).uacc = s.uacc := rfl
@[simp] theorem State.addTx_cmd (bs : List Byte) (s : State) : (s.addTx bs).cmd = s.cmd := rfl
@[simp] theorem State.addTx_rsp (bs : List Byte) (s : State) : (s.addTx bs).rsp = s.rsp := rfl
@[simp] theorem State.addTx_rpt (bs : List Byte) (s : State) : (s.addTx bs).rpt = s.rpt := rfl
@[simp] theorem State.addTx_tx (bs : List Byte) (s : State) : (s.addTx bs).tx = s.tx ++ bs := rfl

/-! `respond` appends one word to `RSP` and touches nothing else (R58). -/

@[simp] theorem respond_mem (c : RspCode) (v : Val) (s : State) : (respond c v s).mem = s.mem := rfl
@[simp] theorem respond_size (c : RspCode) (v : Val) (s : State) : (respond c v s).size = s.size := rfl
@[simp] theorem respond_uacc (c : RspCode) (v : Val) (s : State) : (respond c v s).uacc = s.uacc := rfl
@[simp] theorem respond_cmd (c : RspCode) (v : Val) (s : State) : (respond c v s).cmd = s.cmd := rfl
@[simp] theorem respond_rsp (c : RspCode) (v : Val) (s : State) : (respond c v s).rsp = s.rsp ++ [rspWord c v] := rfl
@[simp] theorem respond_rpt (c : RspCode) (v : Val) (s : State) : (respond c v s).rpt = s.rpt := rfl
@[simp] theorem respond_tx (c : RspCode) (v : Val) (s : State) : (respond c v s).tx = s.tx := rfl

/-! The reset event changes `SIZE` and `UACC` only (R220). -/

@[simp] theorem applyReset_mem (s : State) : (applyReset s).mem = s.mem := rfl
@[simp] theorem applyReset_size (s : State) : (applyReset s).size = 0 := rfl
@[simp] theorem applyReset_uacc (s : State) : (applyReset s).uacc = 0xFFFF#16 := rfl
@[simp] theorem applyReset_cmd (s : State) : (applyReset s).cmd = s.cmd := rfl
@[simp] theorem applyReset_rsp (s : State) : (applyReset s).rsp = s.rsp := rfl
@[simp] theorem applyReset_rpt (s : State) : (applyReset s).rpt = s.rpt := rfl
@[simp] theorem applyReset_tx (s : State) : (applyReset s).tx = s.tx := rfl

/-! Sequencing -/

section Sequencing

variable {α β σ τ : Type}

@[simp] theorem chain_ok (a : α) (k : α → Except Fault β) : chain (.ok a) k = k a := rfl
@[simp] theorem chain_error (f : Fault) (k : α → Except Fault β) : chain (.error f) k = .error f := rfl
@[simp] theorem onOk_ok (a : α) (k : α → Out) : onOk (.ok a) k = k a := rfl
@[simp] theorem onOk_error (f : Fault) (k : α → Out) : onOk (.error f) k = .fault f := rfl
@[simp] theorem andThen_next (s : σ) (k : σ → Host.Outcome τ Fault Refusal) : andThen (.next s) k = k s := rfl
@[simp] theorem andThen_fault (f : Fault) (k : σ → Host.Outcome τ Fault Refusal) :
    andThen (.fault f) k = .fault f := rfl
@[simp] theorem andThen_refused (r : Refusal) (k : σ → Host.Outcome τ Fault Refusal) :
    andThen (.refused r) k = .refused r := rfl

/-- A chain that answers has a first part that answered. -/
theorem chain_eq_ok {r : Except Fault α} {k : α → Except Fault β} {b : β} :
    chain r k = .ok b ↔ ∃ a, r = .ok a ∧ k a = .ok b := by
  cases r <;> simp [chain]

/-- A command that answers a next state had no fault in its first part. -/
theorem onOk_eq_next {r : Except Fault α} {k : α → Out} {t : State} :
    onOk r k = .next t ↔ ∃ a, r = .ok a ∧ k a = .next t := by
  cases r <;> simp [onOk]

/-- A sequence that answers a next state went through one. -/
theorem andThen_eq_next {o : Host.Outcome σ Fault Refusal} {k : σ → Host.Outcome τ Fault Refusal} {t : τ} :
    andThen o k = .next t ↔ ∃ s, o = .next s ∧ k s = .next t := by
  cases o <;> simp [andThen]

end Sequencing

end Sys2Proof.Machine
end

