-- ==== Sys2Proof/Laws/Step.lean ====
section
/-! SUPPORT. What a step can do, said once: it waits, it takes the reset event, it runs a command, or it raises the
error of a word that is no command. -/

namespace Sys2Proof.Machine

theorem step_of_nothing_presented {s : State} (h : s.cmd = []) : step s = .next s := by
  simp [step, takeInput, h]

theorem step_of_reset {s : State} {rest : List HostInput} (h : s.cmd = .reset :: rest) :
    step s = .next (applyReset (s.setCmd rest)) := by
  simp [step, takeInput, h]

theorem step_of_command {s : State} {rest : List HostInput} {w : CmdWord} (h : s.cmd = .command w :: rest) :
    step s = match decode w with
      | .ok i => exec i (s.setCmd rest)
      | .error e => raiseError (errorOfDecode e) (s.setCmd rest) := by
  cases s; cases h; rfl

/-- Every step that answers a next state is one of these four. -/
theorem step_cases {s t : State} (h : step s = .next t) :
    (s.cmd = [] ∧ t = s) ∨
    (∃ rest, s.cmd = .reset :: rest ∧ t = applyReset (s.setCmd rest)) ∨
    (∃ w rest i, s.cmd = .command w :: rest ∧ decode w = .ok i ∧ exec i (s.setCmd rest) = .next t) ∨
    (∃ w rest e, s.cmd = .command w :: rest ∧ decode w = .error e ∧
      t = respond (errorOfDecode e).code 0 (s.setCmd rest)) := by
  cases hc : s.cmd with
  | nil => rw [step_of_nothing_presented hc] at h; exact .inl ⟨rfl, by cases h; rfl⟩
  | cons x rest =>
    cases x with
    | reset => rw [step_of_reset hc] at h; exact .inr (.inl ⟨rest, rfl, by cases h; rfl⟩)
    | command w =>
      rw [step_of_command hc] at h
      cases hd : decode w with
      | ok i => rw [hd] at h; exact .inr (.inr (.inl ⟨w, rest, i, rfl, hd, h⟩))
      | error e => rw [hd] at h; exact .inr (.inr (.inr ⟨w, rest, e, rfl, hd, by cases h; rfl⟩))

end Sys2Proof.Machine
end

