-- ==== Sys2Proof/Laws/Exec.lean ====
section
/-! SUPPORT. What a command can change, said once for every state, those that meet no invariant among them: each shared
operation that answers, then each command that answers a next state (00_scope.md R7: its last action is one
`respond`). -/

namespace Sys2Proof.Machine

/-! ## The shared operations, when they answer -/

theorem memWrite_eq_ok {s t : State} {i : Nat} {v : Byte} (h : memWrite s i v = .ok t) :
    i < Config.capacity ∧ t = s.setMem (Memory.write s.mem i v) := by
  unfold memWrite at h
  split at h
  · cases h; exact ⟨‹_›, rfl⟩
  · cases h

theorem moveDown_eq_ok {start n k : Nat} {s t : State} (h : moveDown start n k s = .ok t) :
    ∃ m, t = s.setMem m := by
  induction n generalizing k s with
  | zero => cases h; exact ⟨_, rfl⟩
  | succ n ih =>
    obtain ⟨b, _, h⟩ := chain_eq_ok.mp h
    obtain ⟨u, hu, h⟩ := chain_eq_ok.mp h
    obtain ⟨m, rfl⟩ := ih h
    rw [(memWrite_eq_ok hu).2]
    exact ⟨m, rfl⟩

theorem compactTo_eq_ok {start : Nat} {s t : State} (h : compactTo start s = .ok t) :
    ∃ m, t = (s.setMem m).setSize (s.size - start) := by
  obtain ⟨u, hu, h⟩ := chain_eq_ok.mp h
  obtain ⟨m, rfl⟩ := moveDown_eq_ok hu
  cases h
  exact ⟨m, rfl⟩

theorem reportRange_eq_ok {role : Role} {off n : Nat} {s t : State} (h : reportRange role off n s = .ok t) :
    ∃ bytes, t = s.addRpt ⟨role, bytes⟩ := by
  obtain ⟨bytes, _, h⟩ := chain_eq_ok.mp h
  cases h
  exact ⟨bytes, rfl⟩

theorem discardAll_eq_ok {s t : State} (h : discardAll s = .ok t) :
    ∃ bytes, t = (s.addRpt ⟨.noise, bytes⟩).setSize 0 := by
  obtain ⟨u, hu, h⟩ := chain_eq_ok.mp h
  obtain ⟨bytes, rfl⟩ := reportRange_eq_ok hu
  cases h
  exact ⟨bytes, rfl⟩

theorem confirmFrame_eq_ok {start stop : Nat} {s t : State} (h : confirmFrame start stop s = .ok t) :
    ∃ m reports, t = { s with mem := m, size := s.size - stop, rpt := s.rpt ++ reports } := by
  obtain ⟨u, hu, h⟩ := chain_eq_ok.mp h
  obtain ⟨v, hv, h⟩ := chain_eq_ok.mp h
  obtain ⟨frame, rfl⟩ := reportRange_eq_ok hv
  obtain ⟨m, rfl⟩ := compactTo_eq_ok h
  split at hu
  · obtain ⟨noise, rfl⟩ := reportRange_eq_ok hu
    exact ⟨m, [⟨.noise, noise⟩, ⟨.frame, frame⟩], by simp [State.addRpt, State.setMem, State.setSize]⟩
  · cases hu
    exact ⟨m, [⟨.frame, frame⟩], rfl⟩

/-! ## Every command, when it answers a next state -/

/-- The shape of every next state: the fields the command may write, then its one response word. -/
theorem exec_next_shape {i : Instr} {s t : State} (h : exec i s = .next t) :
    ∃ w, match i with
      | .nop | .status | .crcRead | .crcRange _ _ | .bufRead _ => t = s.addRsp w
      | .srst => t = (applyReset s).addRsp w
      | .crcInit => t = (s.setUacc Config.crcInit).addRsp w
      | .crcByte byte => t = (s.setUacc (crcStep s.uacc byte)).addRsp w
      | .crcEmit => t = (s.addTx [crcLow s.uacc, crcHigh s.uacc]).addRsp w
      | .bufReset => t = (s.setSize 0).addRsp w
      | .bufPush _ | .bufCompact _ => ∃ m n, t = ((s.setMem m).setSize n).addRsp w
      | .syncScan =>
        ∃ m n reports, t = ({ s with mem := m, size := n, rpt := s.rpt ++ reports } : State).addRsp w
      | .syncEvict | .syncFlush =>
        t = s.addRsp w ∨ ∃ bytes, t = ((s.addRpt ⟨.noise, bytes⟩).setSize 0).addRsp w := by
  have answer : ∀ {c : RspCode} {v : Val} {u : State},
      (Host.Outcome.next (respond c v u) : Out) = .next t → t = u.addRsp (rspWord c v) := by
    intro c v u h; cases h; rfl
  cases i with
  | nop | status | srst | crcInit | crcByte | crcRead | crcEmit | bufReset => exact ⟨_, answer h⟩
  | crcRange off len =>
    simp only [exec, execCrcRange] at h
    split at h
    · obtain ⟨bytes, _, h⟩ := onOk_eq_next.mp h
      exact ⟨_, answer h⟩
    · exact ⟨_, answer h⟩
  | bufRead idx =>
    simp only [exec, execBufRead] at h
    split at h
    · obtain ⟨b, _, h⟩ := onOk_eq_next.mp h
      exact ⟨_, answer h⟩
    · exact ⟨_, answer h⟩
  | bufPush byte =>
    simp only [exec, execBufPush] at h
    split at h
    · obtain ⟨u, hu, h⟩ := onOk_eq_next.mp h
      rw [(memWrite_eq_ok hu).2] at h
      exact ⟨_, _, _, answer h⟩
    · exact ⟨_, s.mem, s.size, answer h⟩
  | bufCompact start =>
    simp only [exec, execBufCompact] at h
    split at h
    · obtain ⟨u, hu, h⟩ := onOk_eq_next.mp h
      obtain ⟨m, rfl⟩ := compactTo_eq_ok hu
      exact ⟨_, _, _, answer h⟩
    · exact ⟨_, s.mem, s.size, answer h⟩
  | syncScan =>
    obtain ⟨found, _, h⟩ := onOk_eq_next.mp h
    cases found with
    | none => exact ⟨_, s.mem, s.size, [], (answer h).trans (by rw [List.append_nil])⟩
    | some p =>
      obtain ⟨u, hu, h⟩ := onOk_eq_next.mp h
      obtain ⟨m, reports, rfl⟩ := confirmFrame_eq_ok hu
      exact ⟨_, _, _, _, answer h⟩
  | syncEvict =>
    simp only [exec, execSyncEvict] at h
    split at h
    · obtain ⟨u, hu, h⟩ := onOk_eq_next.mp h
      obtain ⟨bytes, rfl⟩ := discardAll_eq_ok hu
      exact ⟨_, .inr ⟨_, answer h⟩⟩
    · exact ⟨_, .inl (answer h)⟩
  | syncFlush =>
    simp only [exec, execSyncFlush] at h
    split at h
    · exact ⟨_, .inl (answer h)⟩
    · obtain ⟨u, hu, h⟩ := onOk_eq_next.mp h
      obtain ⟨bytes, rfl⟩ := discardAll_eq_ok hu
      exact ⟨_, .inr ⟨_, answer h⟩⟩

end Sys2Proof.Machine
end

