-- ==== Sys2Proof/Laws/HostMacros.lean ====
section
/-! SUPPORT. How many looks the read cycle uses up (44_host_macros_and_collaborators.md R164, entry 11): a finished
cycle at least one, an unfinished one all of them, so that the count in `readForever` cuts no cycle. -/

namespace Sys2Proof.Machine

theorem waitForByte_looks (polls : List Poll) (h : ReadLoop) : (waitForByte polls h).2.length ≤ polls.length := by
  induction polls generalizing h with
  | nil => exact le_rfl
  | cons p ps ih =>
    rw [waitForByte]
    split
    · exact (ih _).trans (Nat.le_succ _)
    · exact Nat.le_succ _

theorem readPasses_looks {polls left : List Poll} {h g : ReadLoop} {ended : Option CycleEnd}
    (hr : readPasses polls h = .next (g, ended, left)) :
    (ended = none → left = []) ∧ (ended ≠ none → left.length < polls.length) := by
  induction polls generalizing h with
  | nil => cases hr; simp
  | cons p ps ih =>
    obtain ⟨⟨f, e⟩, -, hk⟩ := andThen_eq_next.mp hr
    cases e with
    | some e => cases hk; simp
    | none => exact ⟨(ih hk).1, fun hne => (ih hk).2 hne |>.trans (Nat.lt_succ_self _)⟩

theorem readCycle_looks {polls left : List Poll} {h g : ReadLoop} {ended : Option CycleEnd}
    (hr : readCycle polls h = .next (g, ended, left)) :
    (ended = none → left = []) ∧ (ended ≠ none → left.length < polls.length) :=
  ⟨(readPasses_looks hr).1, fun hne => (readPasses_looks hr).2 hne |>.trans_le (waitForByte_looks polls h)⟩

end Sys2Proof.Machine
end

