-- ==== Sys2Proof/Laws/Memory.lean ====
section
/-! SUPPORT. The laws of `BUF`'s cells: a read after a write, the canonical form and the index range kept by a write,
and the canonical form as what it is for: equal contents are equal lists. -/

namespace Sys2Proof.Machine

/-- Cells in canonical form from `hi` on are so from every smaller index on. -/
theorem Memory.wfFrom_mono {lo hi : Nat} {m : List Host.Cell} (h : lo ≤ hi) (hm : Memory.wfFrom hi m = true) :
    Memory.wfFrom lo m = true := by
  cases m with
  | nil => rfl
  | cons c rest =>
    simp only [Memory.wfFrom, Bool.and_eq_true, decide_eq_true_eq] at hm ⊢
    exact ⟨⟨h.trans hm.1.1, hm.1.2⟩, hm.2⟩

/-- An index below the first listed one reads as an unlisted one. -/
theorem Memory.read_below {lo i : Nat} {m : List Host.Cell} (hm : Memory.wfFrom lo m = true) (h : i < lo) :
    Memory.read m i = unlistedByte := by
  induction m generalizing lo with
  | nil => rfl
  | cons c rest ih =>
    simp only [Memory.wfFrom, Bool.and_eq_true, decide_eq_true_eq] at hm
    simp only [Memory.read]
    rw [if_neg (by omega)]
    exact ih hm.2 (by omega)

/-- A read after a write: the byte written at its index, and every other index as before. -/
theorem Memory.read_write {lo : Nat} {m : List Host.Cell} (hm : Memory.wfFrom lo m = true) (i j : Nat) (b : Byte) :
    Memory.read (Memory.write m i b) j = if j = i then b else Memory.read m j := by
  induction m generalizing lo with
  | nil =>
    simp only [Memory.write]
    split
    · rename_i hb; simp [Memory.read, hb]
    · simp [Memory.read, eq_comm (a := i)]
  | cons c rest ih =>
    obtain ⟨k, v⟩ := c
    simp only [Memory.wfFrom, Bool.and_eq_true, decide_eq_true_eq] at hm
    have hrest : ∀ a, a ≤ k → Memory.read rest a = unlistedByte := fun a ha =>
      Memory.read_below hm.2 (by omega)
    simp only [Memory.write]
    split
    · rename_i hik
      by_cases hb : b = unlistedByte
      · by_cases hj : j = i
        · subst hj; simp [hb, Memory.read, hrest j (by omega), show ¬ k = j by omega]
        · simp [hb, hj]
      · by_cases hj : j = i
        · subst hj; simp [hb, Memory.read]
        · simp [hb, hj, Memory.read, show ¬ i = j from fun h => hj h.symm]
    · split
      · rename_i hik
        subst hik
        by_cases hb : b = unlistedByte
        · by_cases hj : j = i
          · subst hj; simp [hb, hrest j (by omega)]
          · simp [hb, hj, Memory.read, show ¬ i = j from fun h => hj h.symm]
        · by_cases hj : j = i
          · subst hj; simp [hb, Memory.read]
          · simp [hb, hj, Memory.read, show ¬ i = j from fun h => hj h.symm]
      · simp only [Memory.read, ih hm.2]
        by_cases hj : j = i
        · subst hj; simp [show ¬ k = j by omega]
        · simp [hj]

/-- A write keeps the canonical form. -/
theorem Memory.wfFrom_write {lo : Nat} {m : List Host.Cell} (hm : Memory.wfFrom lo m = true) {i : Nat} (hi : lo ≤ i)
    (b : Byte) : Memory.wfFrom lo (Memory.write m i b) = true := by
  induction m generalizing lo with
  | nil => by_cases hb : b = unlistedByte <;> simp [Memory.write, Memory.wfFrom, hb, hi]
  | cons c rest ih =>
    obtain ⟨k, v⟩ := c
    have hm' := hm
    simp only [Memory.wfFrom, Bool.and_eq_true, decide_eq_true_eq] at hm'
    simp only [Memory.write]
    split
    · split
      · exact hm
      · rename_i hik hb
        simp only [Memory.wfFrom, Bool.and_eq_true, decide_eq_true_eq]
        exact ⟨⟨hi, hb⟩, ⟨by omega, hm'.1.2⟩, hm'.2⟩
    · split
      · rename_i hik
        subst hik
        split
        · exact Memory.wfFrom_mono (by omega) hm'.2
        · rename_i hb
          simp only [Memory.wfFrom, Bool.and_eq_true, decide_eq_true_eq]
          exact ⟨⟨hi, hb⟩, hm'.2⟩
      · simp only [Memory.wfFrom, Bool.and_eq_true, decide_eq_true_eq]
        exact ⟨hm'.1, ih hm'.2 (by omega)⟩

/-- A write below `CAPACITY` lists no index at or above it. -/
theorem Memory.inRange_write {m : List Host.Cell} (hm : Memory.inRange m = true) {i : Nat} (hi : i < Config.capacity)
    (b : Byte) : Memory.inRange (Memory.write m i b) = true := by
  induction m with
  | nil => by_cases hb : b = unlistedByte <;> simp [Memory.write, Memory.inRange, hb, hi]
  | cons c rest ih =>
    obtain ⟨k, v⟩ := c
    simp only [Memory.inRange, List.all_cons, Bool.and_eq_true, decide_eq_true_eq] at hm
    have ih' := ih hm.2
    simp only [Memory.write, Memory.inRange] at ih' ⊢
    split
    · split <;> simp only [List.all_cons, Bool.and_eq_true, decide_eq_true_eq]
      · exact hm
      · exact ⟨hi, hm⟩
    · split
      · split
        · exact hm.2
        · simp only [List.all_cons, Bool.and_eq_true, decide_eq_true_eq]; exact ⟨hi, hm.2⟩
      · simp only [List.all_cons, Bool.and_eq_true, decide_eq_true_eq]; exact ⟨hm.1, ih'⟩

/-- Cells in canonical form with the same contents are the same list. -/
theorem Memory.ext_of_read {lo : Nat} {m n : List Host.Cell} (hm : Memory.wfFrom lo m = true)
    (hn : Memory.wfFrom lo n = true) (h : ∀ i, Memory.read m i = Memory.read n i) : m = n := by
  induction m generalizing lo n with
  | nil =>
    cases n with
    | nil => rfl
    | cons d rest =>
      obtain ⟨k, v⟩ := d
      simp only [Memory.wfFrom, Bool.and_eq_true, decide_eq_true_eq] at hn
      have := h k
      simp [Memory.read] at this
      exact absurd this.symm hn.1.2
  | cons c rest ih =>
    obtain ⟨k, v⟩ := c
    have hm0 := hm
    simp only [Memory.wfFrom, Bool.and_eq_true, decide_eq_true_eq] at hm
    cases n with
    | nil =>
      have := h k
      simp [Memory.read] at this
      exact absurd this hm.1.2
    | cons d rest' =>
      obtain ⟨k', v'⟩ := d
      have hn0 := hn
      simp only [Memory.wfFrom, Bool.and_eq_true, decide_eq_true_eq] at hn
      have hk : k = k' := by
        rcases Nat.lt_trichotomy k k' with hlt | heq | hgt
        · have h1 := h k
          simp only [Memory.read, if_true, if_neg (show ¬ k' = k by omega)] at h1
          rw [Memory.read_below hn.2 (by omega)] at h1
          exact absurd h1 hm.1.2
        · exact heq
        · have h1 := h k'
          simp only [Memory.read, if_true, if_neg (show ¬ k = k' by omega)] at h1
          rw [Memory.read_below hm.2 (by omega)] at h1
          exact absurd h1.symm hn.1.2
      subst hk
      have hv : v = v' := by simpa [Memory.read] using h k
      subst hv
      have hrest : rest = rest' := by
        refine ih hm.2 hn.2 fun i => ?_
        by_cases hi : k = i
        · subst hi
          rw [Memory.read_below hm.2 (by omega), Memory.read_below hn.2 (by omega)]
        · simpa [Memory.read, hi] using h i
      rw [hrest]

/-- Outside the range of the listed indices every index reads as an unlisted one. -/
theorem Memory.read_outside {m : List Host.Cell} (hm : Memory.inRange m = true) {i : Nat}
    (hi : Config.capacity ≤ i) : Memory.read m i = unlistedByte := by
  induction m with
  | nil => rfl
  | cons c rest ih =>
    simp only [Memory.inRange, List.all_cons, Bool.and_eq_true, decide_eq_true_eq] at hm
    simp only [Memory.read, if_neg (show ¬ c.1 = i by omega)]
    exact ih hm.2

end Sys2Proof.Machine
end

