-- ==== Sys2Proof/Laws/Ops.lean ====
section
/-! SUPPORT. One lemma for each shared operation over `BUF`: what it answers and all it changes, from every state that
meets the invariant. -/

namespace Sys2Proof.Machine

/-! ## The primitives -/

/-- A read of a valid index answers its byte (R31). -/
theorem memRead_valid {s : State} (hs : s.size ≤ Config.capacity) {i : Nat} (hi : i < s.size) :
    memRead s i = .ok (Memory.read s.mem i) := by
  simp [memRead, hi, show i < Config.capacity by omega]

/-- A read that answers was of a valid index of `BUF` (R30, R31). -/
theorem memRead_eq_ok {s : State} {i : Nat} {b : Byte} (h : memRead s i = .ok b) :
    i < s.size ∧ i < Config.capacity ∧ b = Memory.read s.mem i := by
  simp only [memRead] at h
  split at h
  · split at h
    · simp_all
    · cases h
  · cases h

/-- A write below `CAPACITY` stores its byte and touches no other field (R32). -/
theorem memWrite_inside (s : State) {i : Nat} (hi : i < Config.capacity) (v : Byte) :
    memWrite s i v = .ok (s.setMem (Memory.write s.mem i v)) := by
  simp [memWrite, hi]

/-! ## The valid bytes -/

@[simp] theorem State.valid_length (s : State) : s.valid.length = s.size := by simp [State.valid]

@[simp] theorem State.valid_getElem (s : State) (i : Nat) (h : i < s.valid.length) :
    s.valid[i] = Memory.read s.mem i := by simp [State.valid]

theorem State.valid_getElem? (s : State) (i : Nat) :
    s.valid[i]? = if i < s.size then some (Memory.read s.mem i) else none := by
  by_cases h : i < s.size <;> simp [State.valid, h]

/-- The valid bytes depend on `BUF` and `SIZE` only. -/
theorem State.valid_congr {s t : State} (hsize : s.size = t.size)
    (hread : ∀ i, i < s.size → Memory.read s.mem i = Memory.read t.mem i) : s.valid = t.valid := by
  apply List.ext_getElem (by simp [hsize])
  intro i h1 h2
  simpa using hread i (by simpa using h1)

/-- An empty buffer has no valid byte. -/
theorem State.valid_of_size_zero {s : State} (h : s.size = 0) : s.valid = [] := by
  simp [State.valid, h]

/-! ## Ranges and reports -/

/-- A range inside the valid bytes is read whole, in order (R7). -/
theorem readRange_valid {s : State} (hs : s.size ≤ Config.capacity) {off n : Nat} (h : off + n ≤ s.size) :
    readRange s off n = .ok ((s.valid.drop off).take n) := by
  induction n generalizing off with
  | zero => simp [readRange]
  | succ n ih =>
    have hoff : off < s.valid.length := by simp; omega
    rw [readRange, memRead_valid hs (by omega), chain_ok, ih (by omega), chain_ok,
      List.drop_eq_getElem_cons hoff]
    simp

/-- A report of a range inside the valid bytes appends one record with those bytes (R60). -/
theorem reportRange_valid {s : State} (hs : s.size ≤ Config.capacity) (role : Role) {off n : Nat}
    (h : off + n ≤ s.size) :
    reportRange role off n s = .ok (s.addRpt ⟨role, (s.valid.drop off).take n⟩) := by
  simp [reportRange, readRange_valid hs h]

/-- The recovery of SYNC.EVICT and SYNC.FLUSH (R198): one noise record with every valid byte, then `SIZE` 0. -/
theorem discardAll_valid {s : State} (hs : s.size ≤ Config.capacity) :
    discardAll s = .ok ((s.addRpt ⟨.noise, s.valid⟩).setSize 0) := by
  rw [discardAll, reportRange_valid hs .noise (by simp : 0 + s.size ≤ s.size), chain_ok, List.drop_zero,
    List.take_of_length_le (by simp)]

/-! ## Compaction -/

/-- The loop of R101: `n` bytes moved down from index `start + k` to index `k`, every other index as before; nothing
but `BUF` changes, and its form is kept. -/
theorem moveDown_valid {s : State} (hs : s.Inv) {start n k : Nat} (h : start + k + n ≤ s.size) :
    ∃ m, moveDown start n k s = .ok (s.setMem m) ∧ Memory.wf m = true ∧ Memory.inRange m = true ∧
      ∀ j, Memory.read m j = if k ≤ j ∧ j < k + n then Memory.read s.mem (start + j) else Memory.read s.mem j := by
  induction n generalizing s k with
  | zero =>
    refine ⟨s.mem, rfl, hs.mem_wf, hs.mem_inRange, fun j => ?_⟩
    rw [if_neg (by omega)]
  | succ n ih =>
    have hcap := hs.size_le
    have hwf : Memory.wfFrom 0 s.mem = true := hs.mem_wf
    have hk : k < Config.capacity := by omega
    rw [moveDown, memRead_valid hcap (by omega), chain_ok, memWrite_inside s hk, chain_ok]
    let b := Memory.read s.mem (start + k)
    let t := s.setMem (Memory.write s.mem k b)
    have ht : t.Inv :=
      ⟨hcap, Memory.wfFrom_write hwf (Nat.zero_le k) b, Memory.inRange_write hs.mem_inRange hk b⟩
    obtain ⟨m, hm, hmwf, hmr, hread⟩ := ih (s := t) (k := k + 1) ht (by show _ ≤ s.size; omega)
    refine ⟨m, hm, hmwf, hmr, fun j => ?_⟩
    have hw : ∀ j, Memory.read t.mem j = if j = k then b else Memory.read s.mem j :=
      fun j => Memory.read_write hwf k j b
    rw [hread, hw, hw]
    by_cases hjk : j = k
    · subst hjk; simp [b]
    · by_cases hin : k + 1 ≤ j ∧ j < k + 1 + n
      · rw [if_pos hin, if_neg (by omega), if_pos (by omega)]
      · rw [if_neg hin, if_neg hjk, if_neg (by omega)]

/-- Compaction (R101): the valid bytes lose their first `start`, `SIZE` goes down by `start`, the indices at and above
the new `SIZE` keep what they held, and no register or stream changes. -/
theorem compactTo_valid {s : State} (hs : s.Inv) {start : Nat} (h : start ≤ s.size) :
    ∃ m, compactTo start s = .ok ((s.setMem m).setSize (s.size - start)) ∧ Memory.wf m = true ∧
      Memory.inRange m = true ∧
      ∀ j, Memory.read m j =
        if j < s.size - start then Memory.read s.mem (start + j) else Memory.read s.mem j := by
  obtain ⟨m, hm, hwf, hr, hread⟩ := moveDown_valid hs (start := start) (n := s.size - start) (k := 0) (by omega)
  refine ⟨m, by rw [compactTo, hm, chain_ok], hwf, hr, fun j => ?_⟩
  rw [hread]
  simp

/-- What is valid after a compaction. -/
theorem State.valid_compacted {s : State} {start : Nat} {m : List Host.Cell}
    (hread : ∀ j, Memory.read m j =
      if j < s.size - start then Memory.read s.mem (start + j) else Memory.read s.mem j) :
    ((s.setMem m).setSize (s.size - start)).valid = s.valid.drop start := by
  apply List.ext_getElem (by simp)
  intro i h1 h2
  have hi : i < s.size - start := by simpa using h1
  simp [hread, hi]

/-- What is valid after an append. -/
theorem State.valid_appended {s : State} (hwf : Memory.wf s.mem = true) (b : Byte) :
    ((s.setMem (Memory.write s.mem s.size b)).setSize (s.size + 1)).valid = s.valid ++ [b] := by
  have hread := fun j => Memory.read_write (lo := 0) hwf s.size j b
  apply List.ext_getElem (by simp)
  intro i h1 h2
  have hi : i < s.size + 1 := by simpa using h1
  by_cases hlt : i < s.size
  · simp [List.getElem_append_left, hlt, hread, show ¬ i = s.size by omega]
  · have : i = s.size := by omega
    subst this
    simp [hread]

/-! ## Response words -/

/-- The `code` field of a response word (R58). -/
@[simp] theorem rspWord_code (c : RspCode) (v : Val) : (rspWord c v).extractLsb' 24 8 = c.bits := by
  apply BitVec.eq_of_getLsbD_eq
  intro i hi
  simp only [rspWord, BitVec.getLsbD_extractLsb', BitVec.getLsbD_append]
  simp [hi]

/-- The `val` field of a response word (R58). -/
@[simp] theorem rspWord_val (c : RspCode) (v : Val) : (rspWord c v).extractLsb' 0 24 = v := by
  apply BitVec.eq_of_getLsbD_eq
  intro i hi
  simp only [rspWord, BitVec.getLsbD_extractLsb', BitVec.getLsbD_append]
  simp [hi]

/-- Whether the last response has a code is seen in the code just responded. -/
@[simp] theorem answered_respond (c d : RspCode) (v : Val) (s : State) :
    answered c (respond d v s) = (d.bits == c.bits) := by
  simp [answered]

/-! ## The invariant through the operations -/

theorem State.Inv.respond {s : State} (hs : s.Inv) (c : RspCode) (v : Val) : (respond c v s).Inv :=
  ⟨hs.size_le, hs.mem_wf, hs.mem_inRange⟩

theorem State.Inv.setSize {s : State} (hs : s.Inv) {n : Nat} (hn : n ≤ Config.capacity) : (s.setSize n).Inv :=
  ⟨hn, hs.mem_wf, hs.mem_inRange⟩

theorem State.Inv.setCmd {s : State} (hs : s.Inv) (c : List HostInput) : (s.setCmd c).Inv :=
  ⟨hs.size_le, hs.mem_wf, hs.mem_inRange⟩

theorem State.Inv.setUacc {s : State} (hs : s.Inv) (c : Crc) : (s.setUacc c).Inv :=
  ⟨hs.size_le, hs.mem_wf, hs.mem_inRange⟩

theorem State.Inv.addTx {s : State} (hs : s.Inv) (bs : List Byte) : (s.addTx bs).Inv :=
  ⟨hs.size_le, hs.mem_wf, hs.mem_inRange⟩

theorem State.Inv.addRpt {s : State} (hs : s.Inv) (r : Report) : (s.addRpt r).Inv :=
  ⟨hs.size_le, hs.mem_wf, hs.mem_inRange⟩

theorem State.Inv.setMem {s : State} (hs : s.Inv) {m : List Host.Cell} (hwf : Memory.wf m = true)
    (hr : Memory.inRange m = true) : (s.setMem m).Inv :=
  ⟨hs.size_le, hwf, hr⟩

end Sys2Proof.Machine
end

