-- ==== Sys2Proof/Laws/Synchronizer.lean ====
section
/-! SUPPORT. The scan's loops as what they answer (42_frame_synchronizer.md R121 to R125): each loop is stated against
the ranges of the valid bytes, so that no later proof unfolds it; and the recovery of a confirmed frame (R126). -/

namespace Sys2Proof.Machine

/-- The classifier as R123 states it. -/
theorem plausible_iff (b : Byte) : plausible b = true ↔ b &&& 0x7F#8 ∈ [3#8, 6#8, 22#8] := by
  simp only [plausible, Config.fcMask, Config.fcAllow]; rw [List.contains_iff_mem]

/-- A candidate of the valid bytes: its function code byte is valid (R122) and plausible (R123). -/
theorem isCandidate_valid {s : State} {c : Nat} :
    IsCandidate s.valid c ↔ c + 1 < s.size ∧ plausible (Memory.read s.mem (c + 1)) = true := by
  simp only [IsCandidate, State.valid_getElem?, plausible_iff]
  constructor
  · rintro ⟨fc, h, hfc⟩
    split at h
    · cases h; exact ⟨‹_›, hfc⟩
    · cases h
  · rintro ⟨h, hfc⟩
    exact ⟨_, by simp [h], hfc⟩

/-- The inner loop, started at index `i` of candidate `start` with the checksum of the bytes before `i`: it answers the
smallest end above `i` of a zero range, or none when there is none. -/
theorem extend_spec {s : State} (hs : s.size ≤ Config.capacity) {start n i : Nat} (hi : start ≤ i)
    (hn : i + n = s.size) :
    ∃ r, extend s n i (crc16 ((s.valid.drop start).take (i - start))) = .ok r ∧
      match r with
      | none => ∀ e, i < e → ¬ IsZeroRange s.valid start e
      | some e => i < e ∧ IsZeroRange s.valid start e ∧ ∀ e', i < e' → e' < e → ¬ IsZeroRange s.valid start e' := by
  induction n generalizing i with
  | zero => exact ⟨none, rfl, fun e he h => by have := h.2.1; simp at this; omega⟩
  | succ n ih =>
    have hlt : i < s.valid.length := by simp; omega
    have hacc : crcStep (crc16 ((s.valid.drop start).take (i - start))) (Memory.read s.mem i) =
        crc16 ((s.valid.drop start).take (i + 1 - start)) := by
      rw [crc16, crc16, foldl_crcStep_take_succ hi hlt]; simp
    rw [extend, memRead_valid hs (by omega), chain_ok, hacc]
    by_cases hz : crc16 ((s.valid.drop start).take (i + 1 - start)) = 0x0000#16
    · rw [if_pos (by simpa using hz)]
      exact ⟨some (i + 1), rfl, by omega, ⟨by omega, by simp; omega, hz⟩, fun e' h1 h2 => by omega⟩
    · rw [if_neg (by simpa using hz)]
      obtain ⟨r, hr, hp⟩ := ih (i := i + 1) (by omega) (by omega)
      have hnext : ¬ IsZeroRange s.valid start (i + 1) := fun h => hz h.2.2
      refine ⟨r, hr, ?_⟩
      cases r with
      | none =>
        intro e he
        by_cases h : e = i + 1
        · subst h; exact hnext
        · exact hp e (by omega)
      | some e =>
        refine ⟨by have := hp.1; omega, hp.2.1, fun e' h1 h2 => ?_⟩
        by_cases h : e' = i + 1
        · subst h; exact hnext
        · exact hp.2.2 e' (by omega) h2

/-- The outer loop, started at candidate `c` when no candidate before it has a zero range. -/
theorem candidates_spec {s : State} (hs : s.size ≤ Config.capacity) {n c : Nat}
    (hn : c + n + 1 = s.size ∨ n = 0 ∧ s.size ≤ c + 1)
    (before : ∀ c' < c, IsCandidate s.valid c' → ∀ e, ¬ IsZeroRange s.valid c' e) :
    ∃ r, candidates s n c = .ok r ∧
      match r with
      | none => NoFrame s.valid
      | some (start, stop) => IsFirstFrame s.valid start stop := by
  induction n generalizing c with
  | zero =>
    refine ⟨none, rfl, fun c' hc' => ?_⟩
    have := (isCandidate_valid.mp hc').1
    exact before c' (by omega) hc'
  | succ n ih =>
    rw [candidates, memRead_valid hs (by omega), chain_ok]
    by_cases hp : plausible (Memory.read s.mem (c + 1)) = true
    · rw [if_pos hp]
      have hc : IsCandidate s.valid c := isCandidate_valid.mpr ⟨by omega, hp⟩
      obtain ⟨r, hr, hq⟩ := extend_spec hs (start := c) (i := c) (n := s.size - c) (le_refl _) (by omega)
      have hinit : crc16 ((s.valid.drop c).take (c - c)) = Config.crcInit := by simp [crc16]
      rw [hinit] at hr
      rw [hr, chain_ok]
      cases r with
      | some e =>
        refine ⟨_, rfl, hc, hq.2.1, fun e' h hz => ?_, before⟩
        exact hq.2.2 e' hz.1 h hz
      | none =>
        refine ih (c := c + 1) (by omega) fun c' h hc' => ?_
        by_cases heq : c' = c
        · subst heq; exact fun e he => hq e he.1 he
        · exact before c' (by omega) hc'
    · rw [if_neg hp]
      refine ih (c := c + 1) (by omega) fun c' h hc' => ?_
      by_cases heq : c' = c
      · subst heq; exact absurd (isCandidate_valid.mp hc').2 hp
      · exact before c' (by omega) hc'

/-- The scan never faults; it answers a first frame of the valid bytes, or none, and then they hold none. -/
theorem scan_spec {s : State} (hs : s.size ≤ Config.capacity) :
    ∃ r, scan s = .ok r ∧
      match r with
      | none => NoFrame s.valid
      | some (start, stop) => IsFirstFrame s.valid start stop :=
  candidates_spec hs (by omega) fun _ h => absurd h (Nat.not_lt_zero _)

/-- The recovery of a confirmed frame (R126): the records, then the compaction. -/
theorem confirmFrame_valid {s : State} (hs : s.Inv) {start stop : Nat} (h : start < stop) (hstop : stop ≤ s.size) :
    ∃ m, confirmFrame start stop s = .ok { s with
        mem := m
        size := s.size - stop
        rpt := s.rpt ++ (if 0 < start then [⟨.noise, s.valid.take start⟩] else []) ++
          [⟨.frame, (s.valid.drop start).take (stop - start)⟩] } ∧
      Memory.wf m = true ∧ Memory.inRange m = true ∧
      ∀ j, Memory.read m j = if j < s.size - stop then Memory.read s.mem (stop + j) else Memory.read s.mem j := by
  let t : State := if 0 < start then s.addRpt ⟨.noise, s.valid.take start⟩ else s
  have ht : (if 0 < start then reportRange .noise 0 start s else .ok s) = .ok t := by
    simp only [t]
    split
    · rw [reportRange_valid hs.size_le .noise (by omega)]; simp
    · rfl
  have hti : t.Inv := by simp only [t]; split <;> [exact hs.addRpt _; exact hs]
  have htsize : t.size = s.size := by simp only [t]; split <;> rfl
  have htvalid : t.valid = s.valid := by simp only [t]; split <;> rfl
  have htmem : t.mem = s.mem := by simp only [t]; split <;> rfl
  let u := t.addRpt ⟨.frame, (s.valid.drop start).take (stop - start)⟩
  have hu : reportRange .frame start (stop - start) t = .ok u := by
    rw [reportRange_valid hti.size_le .frame (by omega), htvalid]
  have hui : u.Inv := hti.addRpt _
  have husize : u.size = s.size := htsize
  obtain ⟨m, hm, hwf, hr, hread⟩ := compactTo_valid hui (start := stop) (by omega)
  refine ⟨m, ?_, hwf, hr, fun j => ?_⟩
  · rw [confirmFrame, ht, chain_ok, hu, chain_ok, hm, husize]
    simp only [u, t, State.addRpt, State.setMem, State.setSize]
    split <;> simp
  · have := hread j
    rwa [show u.mem = s.mem from htmem, husize] at this

end Sys2Proof.Machine
end

