-- ==== Sys2Proof/Machine/Assembler.lean ====
section
/-! DEFINITION. The assembler syntax of the spec's examples and programs (30_encoding.md R62): one command a line, the
mnemonic of R56 in capitals, its operands separated by commas, each a decimal or a `0x` hexadecimal number; `;` starts a
comment, and an expected response may stand after `->`. It is a way to write a command; no command and no step uses
it. How much white space may stand where, and that hexadecimal digits are read in both cases, is entry 13. -/

namespace Sys2Proof.Machine

/-- A line up to its comment or its expected response (R62). -/
def lineBody : List Char → List Char
  | [] => []
  | ';' :: _ => []
  | '-' :: '>' :: _ => []
  | c :: rest => c :: lineBody rest

/-- The characters without the blanks at their start. -/
def skipBlanks : List Char → List Char
  | [] => []
  | c :: rest => if c = ' ' ∨ c = '\t' then skipBlanks rest else c :: rest

/-- The characters without the blanks at either end. -/
def trimBlanks (cs : List Char) : List Char := (skipBlanks (skipBlanks cs).reverse).reverse

/-- The pieces between commas. -/
def splitCommas : List Char → List (List Char)
  | [] => [[]]
  | ',' :: rest => [] :: splitCommas rest
  | c :: rest =>
    match splitCommas rest with
    | [] => [[c]]
    | piece :: pieces => (c :: piece) :: pieces

/-- A digit's value, when it is one in this base. -/
def digitValue (base : Nat) (c : Char) : Option Nat :=
  let n := c.toNat
  let v := if 48 ≤ n ∧ n ≤ 57 then some (n - 48)
    else if 65 ≤ n ∧ n ≤ 70 then some (n - 55)
    else if 97 ≤ n ∧ n ≤ 102 then some (n - 87)
    else none
  v.filter fun d => decide (d < base)

/-- Digits read from the left, on top of what was read before them. -/
def readDigits (base : Nat) : Nat → List Char → Option Nat
  | acc, [] => some acc
  | acc, c :: rest => (digitValue base c).bind fun d => readDigits base (acc * base + d) rest

/-- A number: decimal, or hexadecimal after `0x` (R62). -/
def readNumber : List Char → Option Nat
  | [] => none
  | '0' :: 'x' :: c :: rest => readDigits 16 0 (c :: rest)
  | c :: rest => readDigits 10 0 (c :: rest)

/-- The mnemonic of a row (R56). -/
def mnemonic : Opcode → List Char
  | .nop => ['N', 'O', 'P']
  | .status => ['S', 'T', 'A', 'T', 'U', 'S']
  | .srst => ['S', 'R', 'S', 'T']
  | .crcInit => ['C', 'R', 'C', '.', 'I', 'N', 'I', 'T']
  | .crcByte => ['C', 'R', 'C', '.', 'B', 'Y', 'T', 'E']
  | .crcRead => ['C', 'R', 'C', '.', 'R', 'E', 'A', 'D']
  | .crcEmit => ['C', 'R', 'C', '.', 'E', 'M', 'I', 'T']
  | .crcRange => ['C', 'R', 'C', '.', 'R', 'A', 'N', 'G', 'E']
  | .bufPush => ['B', 'U', 'F', '.', 'P', 'U', 'S', 'H']
  | .bufCompact => ['B', 'U', 'F', '.', 'C', 'O', 'M', 'P', 'A', 'C', 'T']
  | .bufReset => ['B', 'U', 'F', '.', 'R', 'E', 'S', 'E', 'T']
  | .bufRead => ['B', 'U', 'F', '.', 'R', 'E', 'A', 'D']
  | .syncScan => ['S', 'Y', 'N', 'C', '.', 'S', 'C', 'A', 'N']
  | .syncEvict => ['S', 'Y', 'N', 'C', '.', 'E', 'V', 'I', 'C', 'T']
  | .syncFlush => ['S', 'Y', 'N', 'C', '.', 'F', 'L', 'U', 'S', 'H']

/-- A command from its row and its operands, when their number and their sizes are those of the row (R55, R56). -/
def commandOf (o : Opcode) (operands : List Nat) : Option Instr :=
  match o, operands with
  | .nop, [] => some .nop
  | .status, [] => some .status
  | .srst, [] => some .srst
  | .crcInit, [] => some .crcInit
  | .crcByte, [n] => if n < 256 then some (.crcByte (BitVec.ofNat 8 n)) else none
  | .crcRead, [] => some .crcRead
  | .crcEmit, [] => some .crcEmit
  | .crcRange, [off, len] => if fitsField off && fitsField len then some (.crcRange off len) else none
  | .bufPush, [n] => if n < 256 then some (.bufPush (BitVec.ofNat 8 n)) else none
  | .bufCompact, [start] => if fitsField start then some (.bufCompact start) else none
  | .bufReset, [] => some .bufReset
  | .bufRead, [idx] => if fitsField idx then some (.bufRead idx) else none
  | .syncScan, [] => some .syncScan
  | .syncEvict, [] => some .syncEvict
  | .syncFlush, [] => some .syncFlush
  | _, _ => none

/-- The operands after the mnemonic. -/
def readOperands (cs : List Char) : Option (List Nat) :=
  if trimBlanks cs = [] then some [] else (splitCommas cs).mapM fun piece => readNumber (trimBlanks piece)

/-- The command a line stands for; none when it is no command line. -/
def assembleLine (line : List Char) : Option Instr :=
  let body := trimBlanks (lineBody line)
  let name := body.takeWhile fun c => c ≠ ' ' && c ≠ '\t'
  (opcodeTable.find? fun o => mnemonic o == name).bind fun o =>
    (readOperands (body.drop name.length)).bind (commandOf o)

end Sys2Proof.Machine
end

