-- ==== Sys2Proof/Tests/Slice0.lean ====
section
/-! SUPPORT. The model's own tests: words written out from 30_encoding.md R56, single steps whose results are taken from
95_test_vectors.md (V<n> and P<n> in the docstrings), an ill-formed command for each check of `Instr.wf`, and a witness
for the hypotheses of each statement of Certificates/Slice0/Obligations.lean that has any. -/

namespace Sys2Proof.Tests

open Sys2Proof.Machine Sys2Proof.Claims

/-! ## Helpers -/

/-- A buffer that holds these bytes, the rest as after reset. -/
def holding (bytes : List Byte) : State :=
  { State.reset with
    mem := (bytes.zipIdx).foldl (fun m p => Memory.write m p.2 p.1) []
    size := bytes.length }

/-- A buffer with this many bytes, all 0x00. -/
def zeros (n : Nat) : State := { State.reset with size := n }

/-- The next state of an outcome, if it is one. -/
def after (o : Out) : Option State :=
  match o with
  | .next s => some s
  | .fault _ => none
  | .refused _ => none

/-- The last response, the valid bytes and the reports after an outcome. -/
def seen (o : Out) : Option (List RspWord × List Byte × List Report) :=
  (after o).map fun s => (s.rsp, s.valid, s.rpt)

/-- The CRC register and the transmitted bytes after an outcome. -/
def crcSeen (o : Out) : Option (List RspWord × Crc × List Byte) :=
  (after o).map fun s => (s.rsp, s.uacc, s.tx)

/-! ## Well-formedness: an ill-formed command for each check -/

theorem test_wf_refuses_long_offset : Instr.wf (.crcRange 4096 0) = false := by decide
theorem test_wf_refuses_long_length : Instr.wf (.crcRange 0 4096) = false := by decide
theorem test_wf_refuses_long_from : Instr.wf (.bufCompact 4096) = false := by decide
theorem test_wf_refuses_long_index : Instr.wf (.bufRead 4096) = false := by decide
theorem test_wf_takes_the_largest : Instr.wf (.crcRange 4095 4095) = true := by decide

/-! ## Decoding: every command's word written out from the table of R56 -/

theorem test_decode_nop : decode 0x00000000#32 = .ok .nop := by decide
theorem test_decode_status : decode 0x01000000#32 = .ok .status := by decide
theorem test_decode_srst : decode 0x02000000#32 = .ok .srst := by decide
theorem test_decode_crcInit : decode 0x10000000#32 = .ok .crcInit := by decide
theorem test_decode_crcByte : decode 0x11000081#32 = .ok (.crcByte 0x81#8) := by decide
theorem test_decode_crcRead : decode 0x12000000#32 = .ok .crcRead := by decide
theorem test_decode_crcEmit : decode 0x13000000#32 = .ok .crcEmit := by decide
theorem test_decode_crcRange : decode 0x14801002#32 = .ok (.crcRange 0x801 2) := by decide
theorem test_decode_bufPush : decode 0x200000AB#32 = .ok (.bufPush 0xAB#8) := by decide
theorem test_decode_bufCompact : decode 0x21000801#32 = .ok (.bufCompact 0x801) := by decide
theorem test_decode_bufReset : decode 0x22000000#32 = .ok .bufReset := by decide
theorem test_decode_bufRead : decode 0x23000FFF#32 = .ok (.bufRead 4095) := by decide
theorem test_decode_syncScan : decode 0x30000000#32 = .ok .syncScan := by decide
theorem test_decode_syncEvict : decode 0x31000000#32 = .ok .syncEvict := by decide
theorem test_decode_syncFlush : decode 0x32000000#32 = .ok .syncFlush := by decide

/-- V53. -/
theorem test_decode_unknown : decode 0x7F000001#32 = .error .unknownOpcode ∧
    decode 0x15000000#32 = .error .unknownOpcode ∧ decode 0xFF000000#32 = .error .unknownOpcode := by decide

/-- V54. -/
theorem test_decode_reserved : decode 0x20000100#32 = .error .reservedBits ∧
    decode 0x00000001#32 = .error .reservedBits ∧ decode 0x11001012#32 = .error .reservedBits ∧
    decode 0x30001000#32 = .error .reservedBits ∧ decode 0x23001000#32 = .error .reservedBits := by decide

/-- V23 and V26. -/
theorem test_encode : encode (.crcRange 6 2) = 0x14006002#32 ∧ encode (.bufCompact 8) = 0x21000008#32 ∧
    encode (.bufPush 0x55#8) = 0x20000055#32 := by decide

/-- The table's numbering of a word. -/
theorem test_decodeTableWord : decodeTableWord 32 0x14006002 = some (.crcRange 6 2) ∧
    decodeTableWord 32 0x40000000 = none := by decide

/-- The lines R62 gives as examples, its comment and response forms, and lines that are no command. -/
theorem test_assembleLine : assembleLine "BUF.PUSH 0xFF".toList = some (.bufPush 0xFF#8) ∧
    assembleLine "CRC.RANGE 0, 6".toList = some (.crcRange 0 6) ∧
    assembleLine "BUF.COMPACT 8 ; drop eight".toList = some (.bufCompact 8) ∧
    assembleLine "SYNC.SCAN -> FOUND s=2 end=10".toList = some .syncScan ∧
    assembleLine "BUF.PUSH 0x100".toList = none ∧ assembleLine "SYNC.SCAN 1".toList = none ∧
    assembleLine "CRC.RANGE 0".toList = none := by decide +kernel

/-! ## Single steps -/

/-- The first step after reset takes the word presented (V57). -/
theorem test_step_withFetchWord :
    (after (step (State.reset.withFetchWord 32 0x01000000))).map State.rsp = some [0x00002000#32] := by decide

/-- P6 lines 1 and 3. -/
theorem test_step_errors :
    (after (step (State.reset.withFetchWord 32 0x40000000))).map State.rsp = some [0xE1000000#32] ∧
    (after (step (State.reset.withFetchWord 32 0x20000100))).map State.rsp = some [0xE2000000#32] := by decide

/-- V50. -/
theorem test_nop : seen (exec .nop (holding [1#8])) = some ([0x00000000#32], [1#8], []) := by decide

/-- V51. -/
theorem test_status : (after (exec .status (zeros 255))).map State.rsp = some [0x000000FF#32] ∧
    (after (exec .status (zeros 256))).map State.rsp = some [0x00001100#32] := by decide

/-- V52. -/
theorem test_srst : after (exec .srst { holding [] with size := 5, uacc := 0x1234#16 }) =
    some { State.reset with rsp := [0x00000000#32] } := by decide

/-- R86. -/
theorem test_crcInit : crcSeen (exec .crcInit { State.reset with uacc := 0x1234#16 }) =
    some ([0x00000000#32], 0xFFFF#16, []) := by decide

/-- V10: `crc_step(0x1234, 0x56) = 0xE993`. -/
theorem test_crcByte : crcSeen (exec (.crcByte 0x56#8) { State.reset with uacc := 0x1234#16 }) =
    some ([0x00000000#32], 0xE993#16, []) := by decide

/-- V1. -/
theorem test_crcRead : crcSeen (exec .crcRead { State.reset with uacc := 0xCDC5#16 }) =
    some ([0x0000CDC5#32], 0xCDC5#16, []) := by decide

/-- V21. -/
theorem test_crcEmit : crcSeen (exec .crcEmit { State.reset with uacc := 0x9B9A#16 }) =
    some ([0x00000000#32], 0x9B9A#16, [0x9A#8, 0x9B#8]) := by decide

/-- V13: the catalogue check string. -/
theorem test_crc16 :
    crc16 [0x31#8, 0x32#8, 0x33#8, 0x34#8, 0x35#8, 0x36#8, 0x37#8, 0x38#8, 0x39#8] = 0x4B37#16 := by
  decide +kernel

/-- V23. -/
theorem test_crcRange :
    (after (exec (.crcRange 6 2)
      (holding [0x11#8, 0x06#8, 0x00#8, 0x01#8, 0x00#8, 0x03#8, 0x9A#8, 0x9B#8]))).map State.rsp =
      some [0x0000BB2A#32] := by decide +kernel

/-- V55: the sum is compared as a natural, no wrap. -/
theorem test_crcRange_outside :
    (after (exec (.crcRange 4095 4095) (zeros 8))).map State.rsp = some [0xE3000000#32] := by decide

/-- V29. -/
theorem test_bufPush : seen (exec (.bufPush 6#8) (holding [3#8, 4#8])) =
    some ([0x00000001#32], [3#8, 4#8, 6#8], []) := by decide

/-- V25: a full buffer takes nothing. -/
theorem test_bufPush_full : after (exec (.bufPush 0x55#8) (zeros 256)) =
    some { zeros 256 with rsp := [0x00000000#32] } := by decide

/-- V26. -/
theorem test_bufCompact :
    seen (exec (.bufCompact 8)
      (holding [0xAA#8, 3#8, 0#8, 0#8, 0#8, 1#8, 0x9D#8, 0xD1#8, 0xBB#8, 0xCC#8])) =
      some ([0x00000002#32], [0xBB#8, 0xCC#8], []) := by decide +kernel

/-- V27. -/
theorem test_bufCompact_outside : after (exec (.bufCompact 6) (zeros 5)) =
    some { zeros 5 with rsp := [0xE3000000#32] } := by decide

/-- V28. -/
theorem test_bufReset : seen (exec .bufReset (zeros 256)) = some ([0x00000000#32], [], []) := by decide

/-- V24 and P2 line 18. -/
theorem test_bufRead : seen (exec (.bufRead 1) (holding [0xBB#8, 0xCC#8])) =
    some ([0x000000CC#32], [0xBB#8, 0xCC#8], []) ∧
    seen (exec (.bufRead 2) (holding [0xBB#8, 0xCC#8])) =
    some ([0xE3000000#32], [0xBB#8, 0xCC#8], []) := by decide

/-- V6, with one byte after the frame: noise, then the frame, then what remains. -/
theorem test_syncScan :
    seen (exec .syncScan (holding [0xFF#8, 0xFF#8, 1#8, 3#8, 0#8, 0#8, 0#8, 0x0A#8, 0xC5#8, 0xCD#8, 0xBB#8])) =
      some ([0x0100200A#32], [0xBB#8],
        [⟨.noise, [0xFF#8, 0xFF#8]⟩, ⟨.frame, [1#8, 3#8, 0#8, 0#8, 0#8, 0x0A#8, 0xC5#8, 0xCD#8]⟩]) := by
  decide +kernel

/-- V38: `FF FF` has checksum zero and is no frame. -/
theorem test_syncScan_noFrame : seen (exec .syncScan (holding [0xFF#8, 0xFF#8])) =
    some ([0x02000000#32], [0xFF#8, 0xFF#8], []) := by decide

/-- V42. -/
theorem test_syncEvict : after (exec .syncEvict (zeros 256)) =
    some { State.reset with rpt := [⟨.noise, List.replicate 256 0x00#8⟩], rsp := [0x03000100#32] } := by
  decide +kernel

/-- V43. -/
theorem test_syncEvict_notFull : after (exec .syncEvict (zeros 255)) =
    some { zeros 255 with rsp := [0x03000000#32] } := by decide

/-- V44. -/
theorem test_syncFlush : seen (exec .syncFlush (holding [0xBB#8, 0xCC#8])) =
    some ([0x03000002#32], [], [⟨.noise, [0xBB#8, 0xCC#8]⟩]) := by decide

/-- V44: an empty buffer gives no record. -/
theorem test_syncFlush_empty : seen (exec .syncFlush State.reset) = some ([0x03000000#32], [], []) := by decide

/-- V20: a pass of the reference host in which the timeout elapses. -/
theorem test_readPass_timesOut :
    (match readPass ⟨[], 1000⟩ ⟨holding [0x34#8, 0xEC#8], [], 0⟩ with
      | .next (h, e) => some (h.core.rpt, e)
      | _ => none) = some ([⟨.noise, [0x34#8, 0xEC#8]⟩], some .timedOut) := by decide

/-- R228: two frames arrive together; the second is reported in the next cycle, after one more byte. -/
theorem test_readForever :
    (match readForever
        [⟨[0x00#8, 0x03#8, 0x41#8, 0xB1#8, 0x00#8, 0x03#8, 0x41#8, 0xB1#8], 0⟩, ⟨[], 1⟩, ⟨[], 2⟩, ⟨[0x55#8], 3⟩, ⟨[], 4⟩]
        ⟨State.reset, [], 0⟩ with
      | .next (h, ends) => some (h.core.rpt, h.core.valid, ends)
      | _ => none) =
      some ([⟨.frame, [0x00#8, 0x03#8, 0x41#8, 0xB1#8]⟩, ⟨.frame, [0x00#8, 0x03#8, 0x41#8, 0xB1#8]⟩], [0x55#8],
        [.found, .found]) := by decide +kernel

/-- V7. -/
theorem test_colorFor : (Registry.start.colorFor [7, 8] 0x11#8).1 = some 7 ∧
    ((Registry.start.colorFor [7, 8] 0x11#8).2.colorFor [7, 8] 0x22#8).1 = some 8 := by decide

/-! ## Witnesses for the hypotheses of the statements -/

/-- Buffers of zeros up to `CAPACITY` meet the invariant. -/
theorem zeros_inv {n : Nat} (h : n ≤ Config.capacity) : (zeros n).Inv := ⟨h, rfl, rfl⟩

theorem holding_inv : (holding [0xFF#8, 0x00#8, 0x03#8, 0x41#8, 0xB1#8]).Inv := ⟨by decide, by decide, by decide⟩

/-- A buffer with noise before a frame of four bytes (V31). -/
theorem holding_valid : (holding [0xFF#8, 0x00#8, 0x03#8, 0x41#8, 0xB1#8]).valid =
    [0xFF#8, 0x00#8, 0x03#8, 0x41#8, 0xB1#8] := by decide

theorem witness_firstFrame_atZero : IsFirstFrame [0x00#8, 0x03#8, 0x41#8, 0xB1#8] 0 4 where
  candidate := ⟨0x03#8, rfl, by decide⟩
  zero := ⟨by decide, by decide, by decide +kernel⟩
  shortest := by
    intro e he hz
    have := hz.2.2
    interval_cases e
    · exact absurd hz.1 (by decide)
    · revert this; decide
    · revert this; decide +kernel
    · revert this; decide +kernel
  lowest := fun c hc => absurd hc (Nat.not_lt_zero c)

theorem witness_firstFrame_afterNoise :
    IsFirstFrame [0xFF#8, 0x00#8, 0x03#8, 0x41#8, 0xB1#8] 1 5 where
  candidate := ⟨0x03#8, rfl, by decide⟩
  zero := ⟨by decide, by decide, by decide +kernel⟩
  shortest := by
    intro e he hz
    have hlt := hz.1
    have := hz.2.2
    interval_cases e
    · revert this; decide
    · revert this; decide +kernel
    · revert this; decide +kernel
  lowest := by
    intro c hc hcand
    have : c = 0 := by omega
    subst this
    obtain ⟨fc, hfc, hmem⟩ := hcand
    simp at hfc
    subst hfc
    exact absurd hmem (by decide)

theorem witness_ScanConfirmsTheFirstFrame : ∃ s : State, s.Inv ∧ IsFirstFrame s.valid 1 5 :=
  ⟨holding [0xFF#8, 0x00#8, 0x03#8, 0x41#8, 0xB1#8], holding_inv, by
    rw [holding_valid]; exact witness_firstFrame_afterNoise⟩

/-- Zeros hold no frame, at every size up to a full buffer (V42). -/
theorem zeros_noFrame (n : Nat) : NoFrame (zeros n).valid := by
  rintro c ⟨fc, hfc, hmem⟩
  rw [State.valid_getElem?] at hfc
  split at hfc
  · cases hfc
    exact absurd (show (0x00#8 &&& 0x7F#8 : Byte) ∈ [0x03#8, 0x06#8, 0x16#8] from hmem) (by decide)
  · cases hfc

theorem witness_ScanWithoutAFrameChangesNothing :
    ((zeros 256).Inv ∧ NoFrame (zeros 256).valid) ∧ ((zeros 0).Inv ∧ NoFrame (zeros 0).valid) :=
  ⟨⟨zeros_inv (by decide), zeros_noFrame _⟩, zeros_inv (by decide), zeros_noFrame _⟩

theorem witness_FirstFrameIsUniqueOrAbsent : ∃ bytes a b, IsFirstFrame bytes a b :=
  ⟨_, _, _, witness_firstFrame_atZero⟩

theorem witness_ConfirmedFramesHaveFourBytesOrMore :
    (∃ bytes a b, IsFirstFrame bytes a b) ∧
      ∃ y : Byte, y ∈ [0x03#8, 0x06#8, 0x16#8, 0x83#8, 0x86#8, 0x96#8] :=
  ⟨⟨_, _, _, witness_firstFrame_afterNoise⟩, 0x96#8, by decide⟩

theorem witness_StepMacroHasThreeOutcomes :
    (∃ s : State, s.Inv ∧ IsFirstFrame s.valid 1 5) ∧
    (∃ s : State, s.Inv ∧ NoFrame s.valid ∧ s.size + 1 = Config.capacity) ∧
    (∃ s : State, s.Inv ∧ NoFrame s.valid ∧ s.size = Config.capacity) :=
  ⟨witness_ScanConfirmsTheFirstFrame, ⟨zeros 255, zeros_inv (by decide), zeros_noFrame _, by decide⟩,
    zeros 256, zeros_inv (by decide), zeros_noFrame _, by decide⟩

theorem witness_DecodeOfEncodeIsTheCommand : ∃ i : Instr, i.wf = true ∧ i = .crcRange 4095 4095 :=
  ⟨_, by decide, rfl⟩

theorem witness_EncodeOfDecodeIsTheWord : ∃ (w : CmdWord) (i : Instr), decode w = .ok i :=
  ⟨0x14FFFFFF#32, .crcRange 4095 4095, by decide⟩

theorem witness_CommandErrorsAnswerAndChangeNothing :
    (∃ (s : State) (w : CmdWord) (rest : List HostInput), s.cmd = .command w :: rest ∧
      w.extractLsb' 24 8 ∉ knownOps) ∧
    (∃ (s : State) (w : CmdWord) (rest : List HostInput), s.cmd = .command w :: rest ∧
      w.extractLsb' 24 8 ∈ knownOps ∧ ∀ p ∈ maskAndMatch, w &&& p.1 ≠ p.2) ∧
    (∃ (s : State) (w : CmdWord) (rest : List HostInput), s.cmd = .command w :: rest ∧
      (∃ p ∈ maskAndMatch, w &&& p.1 = p.2) ∧ OperandOutside (.bufRead s.size) s ∧
      OperandOutside (.bufCompact (s.size + 1)) s ∧ OperandOutside (.crcRange s.size 1) s) :=
  ⟨⟨{ State.reset with cmd := [.command 0x33000000#32] }, _, _, rfl, by decide⟩,
    ⟨{ State.reset with cmd := [.command 0x20000100#32] }, _, _, rfl, by decide, by simp [maskAndMatch]⟩,
    { zeros 8 with cmd := [.command 0x23000008#32] }, _, _, rfl, by decide,
      by show 8 ≤ 8; decide, by show 8 < 8 + 1; decide, by show 8 < 8 + 1; decide⟩

theorem witness_StepRunsTheDecodedCommand : ∃ (s : State) (w : CmdWord) (rest : List HostInput) (i : Instr),
    s.cmd = .command w :: rest ∧ decode w = .ok i :=
  ⟨{ State.reset with cmd := [.command 0x30000000#32] }, _, _, .syncScan, rfl, by decide⟩

theorem witness_StepTakesTheResetEventOrWaits :
    (∃ s : State, s.cmd = []) ∧ ∃ (s : State) (rest : List HostInput), s.cmd = .reset :: rest :=
  ⟨⟨State.reset, rfl⟩, { zeros 256 with cmd := [.reset] }, _, rfl⟩

/-- A state that meets the invariant and has legal outputs, with a scan that confirms a frame as its next command. -/
def scanning : State :=
  { holding [0xFF#8, 0x00#8, 0x03#8, 0x41#8, 0xB1#8] with cmd := [.command 0x30000000#32] }

theorem scanning_inv : scanning.Inv := ⟨by decide, by decide, by decide⟩

theorem witness_StepKeepsTheInvariant : ∃ s t : State, s.Inv ∧ step s = .next t :=
  ⟨scanning, _, scanning_inv, rfl⟩

theorem witness_EveryCommandEndsAndAnswers :
    (∃ s : State, s.Inv ∧ ∃ w rest, s.cmd = .command w :: rest) ∧ ∃ s : State, s.Inv ∧ s.cmd = [] :=
  ⟨⟨scanning, scanning_inv, _, _, rfl⟩, zeros 256, zeros_inv (by decide), rfl⟩

theorem witness_StepKeepsOutputsLegal :
    ∃ s t : State, s.Inv ∧ s.outputsLegal = true ∧ step s = .next t :=
  ⟨scanning, _, scanning_inv, by decide, rfl⟩

theorem witness_OutputStreamsOnlyGrow : ∃ s t : State, step s = .next t := ⟨scanning, _, rfl⟩

theorem witness_StatusReturnsTheStatusWord :
    (zeros 0).size ≤ Config.capacity ∧ (zeros 256).size ≤ Config.capacity := by decide

/-- For the statements about one command under the invariant, at the ends of the range of `SIZE`. -/
theorem witness_invariantAtTheEnds : (zeros 0).Inv ∧ (zeros 255).Inv ∧ (zeros 256).Inv ∧ scanning.Inv :=
  ⟨zeros_inv (by decide), zeros_inv (by decide), zeros_inv (by decide), scanning_inv⟩

theorem witness_PushAppendsOneByteIfThereIsRoom :
    (∃ s : State, s.Inv ∧ s.size + 1 = Config.capacity ∧ s.size < Config.capacity) ∧
    ∃ s : State, s.Inv ∧ s.size = Config.capacity :=
  ⟨⟨zeros 255, zeros_inv (by decide), by decide, by decide⟩, zeros 256, zeros_inv (by decide), by decide⟩

theorem witness_CompactDropsTheOldestBytes :
    (∃ s : State, s.Inv ∧ 0 ≤ s.size ∧ s.size ≤ s.size) ∧ ∃ s : State, s.Inv ∧ s.size < s.size + 1 :=
  ⟨⟨zeros 256, zeros_inv (by decide), by decide, by decide⟩, zeros 256, zeros_inv (by decide), by decide⟩

theorem witness_EvictDiscardsAFullBuffer :
    (∃ s : State, s.Inv ∧ s.size = Config.capacity) ∧ ∃ s : State, s.Inv ∧ s.size ≠ Config.capacity :=
  ⟨⟨zeros 256, zeros_inv (by decide), by decide⟩, zeros 255, zeros_inv (by decide), by decide⟩

theorem witness_FlushDiscardsEverything :
    (∃ s : State, s.Inv ∧ s.size = 0) ∧ ∃ s : State, s.Inv ∧ 0 < s.size :=
  ⟨⟨zeros 0, zeros_inv (by decide), rfl⟩, zeros 1, zeros_inv (by decide), by decide⟩

theorem witness_EachElementHasItsWriters : ∃ s t : State, exec .syncScan s = .next t := ⟨scanning, _, rfl⟩

theorem witness_ReadingHasNoSideEffect :
    (∃ s t : State, exec (.bufRead 4) s = .next t) ∧ (∃ s t : State, exec (.crcRange 1 4) s = .next t) ∧
    (∃ s t : State, exec .crcRead s = .next t) ∧ ∃ s t : State, exec .status s = .next t :=
  ⟨⟨scanning, _, rfl⟩, ⟨scanning, _, rfl⟩, ⟨scanning, _, rfl⟩, scanning, _, rfl⟩

theorem witness_AcceptedBytesAreReportedOnceInOrder :
    (∃ s t : State, s.Inv ∧ exec .syncScan s = .next t) ∧
    (∃ s t : State, s.Inv ∧ exec (.bufPush 0x55#8) s = .next t ∧ s.size < Config.capacity) ∧
    ∃ s t : State, s.Inv ∧ exec (.bufPush 0x55#8) s = .next t ∧ ¬ s.size < Config.capacity :=
  ⟨⟨scanning, _, scanning_inv, rfl⟩, ⟨zeros 255, _, zeros_inv (by decide), rfl, by decide⟩,
    zeros 256, _, zeros_inv (by decide), rfl, by decide⟩

theorem witness_StaleBytesAreInvisible :
    ∃ s t s' : State, s ≠ t ∧ s.Inv ∧ t.Inv ∧ s.SameView t ∧ step s = .next s' :=
  ⟨State.reset, { State.reset with mem := [(255, 0xAA#8)] }, State.reset, by decide,
    ⟨by decide, by decide, by decide⟩, ⟨by decide, by decide, by decide⟩,
    ⟨rfl, rfl, rfl, rfl, rfl, rfl, rfl⟩, rfl⟩

theorem witness_CommandsRunInTheOrderOfTheInput :
    ∀ i ∈ [Instr.bufPush 0xFF#8, .crcRange 4095 4095, .syncScan], i.wf = true := by decide

theorem witness_AppendAcceptsThePrefixThatFits : ∃ s : State, s.Inv ∧ s.size + 1 = Config.capacity :=
  ⟨zeros 255, zeros_inv (by decide), by decide⟩

theorem witness_IngestNeverLeavesTheBufferFull : ∃ s : State, s.Inv ∧ s.size = Config.capacity :=
  ⟨zeros 256, zeros_inv (by decide), by decide⟩

theorem witness_ReadCycleLosesNoByte : ∃ h : ReadLoop, h.core.Inv ∧ h.core.size + 1 = Config.capacity :=
  ⟨⟨zeros 255, [0x55#8, 0x66#8], 0⟩, zeros_inv (by decide), by decide⟩

theorem witness_ReadForeverLosesNoByte : ∃ h : ReadLoop, h.core.Inv ∧ h.core.size + 1 = Config.capacity :=
  witness_ReadCycleLosesNoByte

theorem witness_ColorOfAnAddressIsStable :
    (0x11#8 : Byte) ∈ (Registry.mk [0x11#8, 0x22#8]).seen ∧ (0x33#8 : Byte) ∉ (Registry.mk [0x11#8, 0x22#8]).seen := by
  decide

end Sys2Proof.Tests
end

section
/-! PROOFS of the family 30_encoding.md. Every command ends and answers (R203, R58, R59), the three command errors in
their order (R57, R195), words written out from the table of R56, and the classifier's six bytes (R52). -/

namespace Sys2Proof.Proofs

open Sys2Proof.Machine Sys2Proof.Claims Sys2Proof.Laws

/-! ## Every command ends and answers (R203) -/

/-- The outcome of a command that was begun in `s` and ended: one response on top of what `s` had answered, from a state
that meets the invariant. -/
def Answers (s : State) (o : Out) : Prop :=
  ∃ (c : RspCode) (v : Val) (u : State), o = .next (respond c v u) ∧ u.Inv ∧ u.rsp = s.rsp

section Answering

variable {s u : State}

theorem answers_respond (hu : u.Inv) (hrsp : u.rsp = s.rsp) (c : RspCode) (v : Val) :
    Answers s (.next (respond c v u)) :=
  ⟨c, v, u, rfl, hu, hrsp⟩

theorem answers_raiseError (hs : s.Inv) (e : CmdError) : Answers s (raiseError e s) :=
  answers_respond hs rfl _ _

theorem inv_applyReset (hs : s.Inv) : (applyReset s).Inv :=
  (hs.setSize (Nat.zero_le _)).setUacc _

theorem answers_crcRange (hs : s.Inv) (off len : Nat) : Answers s (execCrcRange off len s) := by
  unfold execCrcRange
  split
  next h =>
    rw [readRange_valid hs.size_le (of_decide_eq_true h), onOk_ok]
    exact answers_respond hs rfl _ _
  next => exact answers_raiseError hs _

theorem answers_bufPush (hs : s.Inv) (byte : Byte) : Answers s (execBufPush byte s) := by
  unfold execBufPush
  split
  next hroom =>
    rw [memWrite_inside s hroom, onOk_ok]
    have hmem := hs.setMem (Memory.wfFrom_write hs.mem_wf (Nat.zero_le _) byte)
      (Memory.inRange_write hs.mem_inRange hroom byte)
    exact answers_respond (hmem.setSize hroom) rfl _ _
  next => exact answers_respond hs rfl _ _

theorem answers_bufCompact (hs : s.Inv) (start : Nat) : Answers s (execBufCompact start s) := by
  unfold execBufCompact
  split
  next h =>
    obtain ⟨m, hm, hwf, hrange, -⟩ := compactTo_valid hs (of_decide_eq_true h)
    rw [hm, onOk_ok]
    exact answers_respond ((hs.setMem hwf hrange).setSize ((Nat.sub_le _ _).trans hs.size_le)) rfl _ _
  next => exact answers_raiseError hs _

theorem answers_bufRead (hs : s.Inv) (idx : Nat) : Answers s (execBufRead idx s) := by
  unfold execBufRead
  split
  next h =>
    rw [memRead_valid hs.size_le (of_decide_eq_true h), onOk_ok]
    exact answers_respond hs rfl _ _
  next => exact answers_raiseError hs _

/-- The scan answers a range inside the valid bytes or none, and a range inside them is confirmed without a fault. -/
theorem answers_syncScan (hs : s.Inv) : Answers s (execSyncScan s) := by
  obtain ⟨found, hscan, hfound⟩ := scan_spec hs.size_le
  rw [execSyncScan, hscan, onOk_ok]
  cases found with
  | none => exact answers_respond hs rfl _ _
  | some range =>
    obtain ⟨start, stop⟩ := range
    obtain ⟨hlt, hle, -⟩ := IsFirstFrame.zero hfound
    rw [State.valid_length] at hle
    obtain ⟨m, hm, hwf, hrange, -⟩ := confirmFrame_valid hs hlt hle
    simp only [hm, onOk_ok]
    exact answers_respond ⟨(Nat.sub_le _ _).trans hs.size_le, hwf, hrange⟩ rfl _ _

theorem answers_discardAll (hs : s.Inv) (v : Val) :
    Answers s (onOk (discardAll s) fun t => .next (respond .discarded v t)) := by
  rw [discardAll_valid hs.size_le, onOk_ok]
  exact answers_respond ((hs.addRpt _).setSize (Nat.zero_le _)) rfl _ _

theorem answers_syncEvict (hs : s.Inv) : Answers s (execSyncEvict s) := by
  unfold execSyncEvict
  split
  · exact answers_discardAll hs _
  · exact answers_respond hs rfl _ _

theorem answers_syncFlush (hs : s.Inv) : Answers s (execSyncFlush s) := by
  unfold execSyncFlush
  split
  · exact answers_respond hs rfl _ _
  · exact answers_discardAll hs _

/-- Every command ends, answers once and keeps the invariant. -/
theorem exec_answers (hs : s.Inv) (i : Instr) : Answers s (exec i s) := by
  cases i with
  | nop | status | crcRead => exact answers_respond hs rfl _ _
  | srst => exact answers_respond (inv_applyReset hs) rfl _ _
  | crcInit | crcByte => exact answers_respond (hs.setUacc _) rfl _ _
  | crcEmit => exact answers_respond (hs.addTx _) rfl _ _
  | crcRange off len => exact answers_crcRange hs off len
  | bufPush byte => exact answers_bufPush hs byte
  | bufCompact start => exact answers_bufCompact hs start
  | bufReset => exact answers_respond (hs.setSize (Nat.zero_le _)) rfl _ _
  | bufRead idx => exact answers_bufRead hs idx
  | syncScan => exact answers_syncScan hs
  | syncEvict => exact answers_syncEvict hs
  | syncFlush => exact answers_syncFlush hs

end Answering

section OneCommand

variable {s : State} {w : CmdWord} {rest : List HostInput}

/-- A word that decodes is run, the word being taken first (R39). -/
theorem step_of_decode_ok {i : Instr} (hcmd : s.cmd = .command w :: rest) (hd : decode w = .ok i) :
    step s = exec i (s.setCmd rest) := by
  rw [step_of_command hcmd, hd]

/-- A word that is no command raises its error (R57). -/
theorem step_of_decode_error {e : DecodeError} (hcmd : s.cmd = .command w :: rest) (hd : decode w = .error e) :
    step s = raiseError (errorOfDecode e) (s.setCmd rest) := by
  rw [step_of_command hcmd, hd]

/-- Whatever word is presented, the step answers it once. -/
theorem step_answers_command (hs : s.Inv) (hcmd : s.cmd = .command w :: rest) : Answers s (step s) := by
  have hinv := hs.setCmd rest
  cases hd : decode w with
  | ok i => rw [step_of_decode_ok hcmd hd]; exact exec_answers hinv i
  | error e => rw [step_of_decode_error hcmd hd]; exact answers_raiseError hinv _

end OneCommand

/-- The codes of R59 are the legal ones. -/
theorem legalResponse_rspWord (c : RspCode) (v : Val) : legalResponse (rspWord c v) = true := by
  rw [legalResponse, rspWord_code]
  cases c <;> decide

/-- Settles O11: a command answers by the case analysis of `exec_answers`; waiting and the reset event answer
nothing. -/
theorem everyCommandEndsAndAnswers : Obligations.EveryCommandEndsAndAnswers := by
  intro s hs
  rcases hcmd : s.cmd with _ | ⟨_ | _, rest⟩
  case nil => exact ⟨s, step_of_nothing_presented hcmd, rfl⟩
  case cons.command w =>
    obtain ⟨c, v, u, hstep, -, hrsp⟩ := step_answers_command hs hcmd
    exact ⟨_, hstep, rspWord c v, by rw [respond_rsp, hrsp], legalResponse_rspWord c v⟩
  case cons.reset => exact ⟨_, step_of_reset hcmd, rfl⟩

/-! ## The decoder against the table written out (R56, R57) -/

theorem mem_opcodeTable (o : Opcode) : o ∈ opcodeTable := by cases o <;> decide

theorem mem_knownOps_iff (op : BitVec 8) : op ∈ knownOps ↔ ∃ o : Opcode, o.code = op := by
  rw [show knownOps = opcodeTable.map Opcode.code from rfl, List.mem_map]
  exact ⟨fun ⟨o, _, ho⟩ => ⟨o, ho⟩, fun ⟨o, ho⟩ => ⟨o, mem_opcodeTable o, ho⟩⟩

theorem mem_maskAndMatch_iff (p : BitVec 32 × BitVec 32) :
    p ∈ maskAndMatch ↔ ∃ o : Opcode, (o.mask, o.pattern) = p := by
  rw [show maskAndMatch = opcodeTable.map fun o => (o.mask, o.pattern) from rfl, List.mem_map]
  exact ⟨fun ⟨o, _, ho⟩ => ⟨o, ho⟩, fun ⟨o, ho⟩ => ⟨o, mem_opcodeTable o, ho⟩⟩

section Decoding

variable {w : CmdWord} {o : Opcode}

/-- A word that matches a row has the row's `op` byte, because every mask covers that byte. -/
theorem opField_of_match (h : w &&& o.mask = o.pattern) : opField w = o.code := by
  have hmask : opField o.mask = BitVec.allOnes 8 := by cases o <;> decide
  calc opField w = opField w &&& opField o.mask := by rw [hmask, BitVec.and_allOnes]
    _ = opField (w &&& o.mask) := BitVec.extractLsb'_and.symm
    _ = opField o.pattern := by rw [h]
    _ = o.code := by cases o <;> decide

theorem decode_of_match (h : w &&& o.mask = o.pattern) : decode w = .ok (assemble o w) := by
  rw [decode_of_opField (opField_of_match h), if_pos h]

theorem decode_of_no_match (hop : opField w = o.code) (h : w &&& o.mask ≠ o.pattern) :
    decode w = .error .reservedBits := by
  rw [decode_of_opField hop, if_neg h]

theorem decode_of_unknown_op (h : opField w ∉ knownOps) : decode w = .error .unknownOpcode := by
  have hnone : opcodeOf (opField w) = none := by
    cases ho : opcodeOf (opField w) with
    | none => rfl
    | some o => exact absurd ((mem_knownOps_iff _).mpr ⟨o, code_of_opcodeOf ho⟩) h
  rw [decode, hnone]

end Decoding

/-! ## The command errors (R57, R195) -/

/-- A command with an operand out of range raises its error (R57 case 3). -/
theorem exec_of_operandOutside {i : Instr} {s : State} (h : OperandOutside i s) : exec i s = raiseError .operand s := by
  cases i with
  | crcRange off len => exact if_neg fun hin => Nat.not_le.mpr h (of_decide_eq_true hin)
  | bufCompact start => exact if_neg fun hin => Nat.not_le.mpr h (of_decide_eq_true hin)
  | bufRead idx => exact if_neg fun hin => Nat.not_lt.mpr h (of_decide_eq_true hin)
  | _ => exact h.elim

/-- Settles O4: the words of each clause decode to that clause's error or command, and each error is raised in the state
without the word. -/
theorem commandErrorsAnswerAndChangeNothing : Obligations.CommandErrorsAnswerAndChangeNothing := by
  intro s w rest hcmd
  refine ⟨fun hop => ?_, fun hop hno => ?_, fun hmatch => ?_⟩
  · exact step_of_decode_error hcmd (decode_of_unknown_op hop)
  · obtain ⟨o, ho⟩ := (mem_knownOps_iff _).mp hop
    have hno' := hno _ ((mem_maskAndMatch_iff _).mpr ⟨o, rfl⟩)
    exact step_of_decode_error hcmd (decode_of_no_match ho.symm hno')
  · obtain ⟨p, hp, hw⟩ := hmatch
    obtain ⟨o, rfl⟩ := (mem_maskAndMatch_iff p).mp hp
    have hd := decode_of_match hw
    refine ⟨assemble o w, hd, fun hout => ?_⟩
    have hout' : OperandOutside (assemble o w) (s.setCmd rest) := hout
    exact (step_of_decode_ok hcmd hd).trans (exec_of_operandOutside hout')

/-! ## Words written out from the table -/

/-- Settles O1: each word matches the row of its command, or no row for the last two. -/
theorem tableWordsDecodeToTheirCommands : Obligations.TableWordsDecodeToTheirCommands :=
  ⟨decode_of_match (o := .nop) (by decide), decode_of_match (o := .status) (by decide),
    decode_of_match (o := .srst) (by decide), decode_of_match (o := .crcInit) (by decide),
    decode_of_match (o := .crcByte) (by decide), decode_of_match (o := .crcRange) (by decide),
    decode_of_match (o := .crcRange) (by decide), decode_of_match (o := .bufPush) (by decide),
    decode_of_match (o := .bufCompact) (by decide), decode_of_match (o := .bufRead) (by decide),
    decode_of_match (o := .syncScan) (by decide), decode_of_unknown_op (by decide),
    decode_of_no_match (o := .bufPush) (by decide) (by decide)⟩

/-! ## The classifier's bytes (R52) -/

/-- Bit 7 is masked off, so that two bytes have a given allowed code: the code, and the code with bit 7 set (R51). -/
theorem and_fcMask_eq_iff : ∀ fc ∈ [3#8, 6#8, 22#8], ∀ b : Byte,
    b &&& 0x7F#8 = fc ↔ b = fc ∨ b = 0x80#8 ||| fc := by decide

/-- Settles O36: two bytes for each of the three allowed codes. -/
theorem plausibleFunctionCodes : Obligations.PlausibleFunctionCodes := by
  intro b
  have h3 : b &&& 0x7F#8 = 3#8 ↔ b = 0x03#8 ∨ b = 0x83#8 := and_fcMask_eq_iff 3#8 (by decide) b
  have h6 : b &&& 0x7F#8 = 6#8 ↔ b = 0x06#8 ∨ b = 0x86#8 := and_fcMask_eq_iff 6#8 (by decide) b
  have h22 : b &&& 0x7F#8 = 22#8 ↔ b = 0x16#8 ∨ b = 0x96#8 := and_fcMask_eq_iff 22#8 (by decide) b
  rw [plausible_iff]
  simp only [List.mem_cons, List.not_mem_nil, or_false, h3, h6, h22]
  exact Iff.of_eq (by ac_rfl)

end Sys2Proof.Proofs
end

section
/-! PROOFS of the family 40_crc16_engine.md. The checksum as the eight iterations of R80 and the fold of R81, and what the
five CRC commands answer and leave unchanged (R86 to R90). -/

namespace Sys2Proof.Proofs

open Sys2Proof.Machine Sys2Proof.Claims Sys2Proof.Laws

/-! ## The checksum (R80, R81) -/

theorem crcBits_eq_iterate (n : Nat) (t : Crc) : crcBits n t = crcBit^[n] t := by
  induction n generalizing t with
  | zero => rfl
  | succ n ih => rw [crcBits_succ, ih, Function.iterate_succ_apply]

theorem crc16_nil : crc16 [] = 0xFFFF#16 := rfl

theorem crc16_concat (xs : List Byte) (b : Byte) : crc16 (xs ++ [b]) = crcStep (crc16 xs) b :=
  foldl_crcStep_append xs [b] Config.crcInit

/-- Settles O14: the model's eight turns are `crcBit` iterated, and `crcBit` is the iteration of R80. -/
theorem crcStepIsEightIterations : Obligations.CrcStepIsEightIterations :=
  ⟨fun acc b => crcBits_eq_iterate 8 (acc ^^^ b.zeroExtend 16),
    by decide, by decide, by decide, by decide, by decide⟩

/-- Settles O15: a left fold over a list with one more byte at its end. -/
theorem crc16ExtendsByteByByte : Obligations.Crc16ExtendsByteByByte :=
  ⟨crc16_nil, crc16_concat, by decide +kernel, by decide +kernel⟩

/-! ## The rows of the command table and the response words (R56 to R59) -/

/-- Every row of the table is encoded as R55 to R57 say, with the operands `assemble` takes from the word. -/
theorem encodedAs_row (o : Opcode) : EncodedAs o.code o.mask (assemble o) := by
  intro w hop
  rw [op_shifted_eq_pattern]
  exact decode_of_opField hop

/-- A response appends its word and changes nothing else (R58). -/
theorem respond_eq (c : RspCode) (v : Val) (s : State) : respond c v s = { s with rsp := s.rsp ++ [rspWord c v] } :=
  rfl

theorem rspWord_ok_zero : rspWord .ok 0 = 0x00000000#32 := by decide

theorem rspWord_errOperand_zero : rspWord .errOperand 0 = 0xE3000000#32 := by decide

theorem rspWord_ok_valCrc (c : Crc) : rspWord .ok (valCrc c) = okCrc c := by
  have hc : c.toNat < 2 ^ 24 := c.isLt.trans (by decide)
  apply BitVec.eq_of_toNat_eq
  rw [rspWord, okCrc, BitVec.toNat_append, BitVec.toNat_append]
  simpa [RspCode.bits, valCrc] using hc

/-! ## The commands on `UACC` (R86 to R89) -/

section OnUacc

variable (s : State)

theorem exec_crcInit : exec .crcInit s = .next (respond .ok 0 (s.setUacc 0xFFFF#16)) := rfl

theorem exec_crcByte (b : Byte) : exec (.crcByte b) s = .next (respond .ok 0 (s.setUacc (crcStep s.uacc b))) := rfl

theorem exec_crcRead : exec .crcRead s = .next (respond .ok (valCrc s.uacc) s) := rfl

theorem exec_crcEmit : exec .crcEmit s = .next (respond .ok 0 (s.addTx [crcLow s.uacc, crcHigh s.uacc])) := rfl

end OnUacc

/-- Settles O23: `UACC` is set and the response is `OK`, 0. -/
theorem crcInitStartsAChecksum : Obligations.CrcInitStartsAChecksum := by
  refine ⟨encodedAs_row .crcInit, fun s => ?_⟩
  rw [exec_crcInit, respond_eq, rspWord_ok_zero]
  rfl

/-- Settles O24: `UACC` is folded once and the response is `OK`, 0. -/
theorem crcByteFoldsOneByte : Obligations.CrcByteFoldsOneByte := by
  refine ⟨encodedAs_row .crcByte, fun s b => ?_⟩
  rw [exec_crcByte, respond_eq, rspWord_ok_zero]
  rfl

/-- Settles O25: the response carries `UACC`, and only the response is new. -/
theorem crcReadReturnsTheAccumulator : Obligations.CrcReadReturnsTheAccumulator := by
  refine ⟨encodedAs_row .crcRead, fun s => ?_⟩
  rw [exec_crcRead, respond_eq, rspWord_ok_valCrc]

/-- Settles O26: the two bytes go out low byte first and the response is `OK`, 0. -/
theorem crcEmitWritesLowThenHigh : Obligations.CrcEmitWritesLowThenHigh := by
  refine ⟨encodedAs_row .crcEmit, fun s => ?_⟩
  rw [exec_crcEmit, respond_eq, rspWord_ok_zero]
  rfl

/-! ## CRC.RANGE (R90) -/

/-- A range inside the valid bytes is read whole, so that the command answers its checksum. -/
theorem exec_crcRange_inside {s : State} (hs : s.Inv) {off len : Nat} (h : off + len ≤ s.size) :
    exec (.crcRange off len) s = .next (respond .ok (valCrc (crc16 ((s.valid.drop off).take len))) s) := by
  have hinside : rangeInside off len s = true := decide_eq_true h
  calc exec (.crcRange off len) s
      = onOk (readRange s off len) fun bs => .next (respond .ok (valCrc (crc16 bs)) s) := if_pos hinside
    _ = .next (respond .ok (valCrc (crc16 ((s.valid.drop off).take len))) s) := by
      rw [readRange_valid hs.size_le h, onOk_ok]

/-- Settles O27: a range that ends beyond `SIZE` is an operand error, any other is answered with its checksum. -/
theorem crcRangeReturnsTheChecksumOfARange : Obligations.CrcRangeReturnsTheChecksumOfARange := by
  refine ⟨encodedAs_row .crcRange, fun s off len hs => ?_⟩
  split
  next hout =>
    have hraise : exec (.crcRange off len) s = .next (respond .errOperand 0 s) := exec_of_operandOutside hout
    rw [hraise, respond_eq, rspWord_errOperand_zero]
  next hin => rw [exec_crcRange_inside hs (Nat.not_lt.mp hin), respond_eq, rspWord_ok_valCrc]

end Sys2Proof.Proofs
end

section
/-! PROOFS of the family 41_frame_buffer.md. What the four commands of the Frame Buffer answer, which bytes of `BUF` they
change and what they leave unchanged (R100 to R103). -/

namespace Sys2Proof.Proofs

open Sys2Proof.Machine Sys2Proof.Claims Sys2Proof.Laws

/-! ## Response words (R58, R59) -/

/-- The code of `OK` is 0, so that the response word is its `val` as a number. -/
theorem rspWord_ok_toNat (v : Val) : (rspWord .ok v).toNat = v.toNat := by
  rw [rspWord, BitVec.toNat_append]
  simp [RspCode.bits]

theorem rspWord_ok_valCount (n : Nat) : rspWord .ok (valCount n) = okCount n := by
  apply BitVec.eq_of_toNat_eq
  rw [rspWord_ok_toNat, valCount, okCount, BitVec.toNat_setWidth_of_le (by decide), BitVec.toNat_append]
  simp

theorem rspWord_ok_valByte (b : Byte) : rspWord .ok (valByte b) = okByte b := by
  apply BitVec.eq_of_toNat_eq
  rw [rspWord_ok_toNat, valByte, okByte, BitVec.toNat_setWidth_of_le (by decide), BitVec.toNat_append]
  simp

/-! ## What each command answers (R100 to R103) -/

section OnBuffer

variable {s : State}

/-- With room, the byte goes to index `SIZE`. -/
theorem exec_bufPush_room (h : s.size < Config.capacity) (b : Byte) :
    exec (.bufPush b) s =
      .next (respond .ok (valCount 1) ((s.setMem (Memory.write s.mem s.size b)).setSize (s.size + 1))) :=
  calc exec (.bufPush b) s
      = onOk (memWrite s s.size b) fun t => .next (respond .ok (valCount 1) (t.setSize (s.size + 1))) := if_pos h
    _ = _ := by rw [memWrite_inside s h, onOk_ok]

theorem exec_bufPush_full (h : s.size = Config.capacity) (b : Byte) :
    exec (.bufPush b) s = .next (respond .ok (valCount 0) s) :=
  if_neg h.not_lt

/-- With no more bytes dropped than there are, the suffix from `start` on is moved to index 0; every index at and above
the new `SIZE` is left as it was. -/
theorem exec_bufCompact_inside (hs : s.Inv) {start : Nat} (h : start ≤ s.size) :
    ∃ m, exec (.bufCompact start) s =
        .next (respond .ok (valCount (s.size - start)) ((s.setMem m).setSize (s.size - start))) ∧
      ∀ a, Memory.read m a =
        if a < s.size - start then Memory.read s.mem (start + a) else Memory.read s.mem a := by
  obtain ⟨m, hm, -, -, hread⟩ := compactTo_valid hs h
  have hinside : compactInside start s = true := decide_eq_true h
  refine ⟨m, ?_, hread⟩
  calc exec (.bufCompact start) s
      = onOk (compactTo start s) fun t => .next (respond .ok (valCount t.size) t) := if_pos hinside
    _ = _ := by rw [hm, onOk_ok, State.setSize_size]

theorem exec_bufReset (s : State) : exec .bufReset s = .next (respond .ok 0 (s.setSize 0)) := rfl

theorem exec_bufRead_inside (hs : s.Inv) {idx : Nat} (h : idx < s.size) :
    exec (.bufRead idx) s = .next (respond .ok (valByte (Memory.read s.mem idx)) s) := by
  have hinside : indexInside idx s = true := decide_eq_true h
  calc exec (.bufRead idx) s
      = onOk (memRead s idx) fun b => .next (respond .ok (valByte b) s) := if_pos hinside
    _ = _ := by rw [memRead_valid hs.size_le h, onOk_ok]

/-- An operand out of range is answered with ERR_OPERAND and nothing else changes (R57 case 3, R195). -/
theorem exec_of_operandOutside_eq {i : Instr} (h : OperandOutside i s) :
    exec i s = .next { s with rsp := s.rsp ++ [0xE3000000#32] } := by
  have hraise : exec i s = .next (respond .errOperand 0 s) := exec_of_operandOutside h
  rw [hraise, respond_eq, rspWord_errOperand_zero]

end OnBuffer

/-! ## The obligations -/

/-- Settles O28: with room `BUF` is written at index `SIZE` only, and a full buffer is left alone. -/
theorem pushAppendsOneByteIfThereIsRoom : Obligations.PushAppendsOneByteIfThereIsRoom := by
  refine ⟨encodedAs_row .bufPush, fun s b hs => ⟨fun hroom => ?_, fun hfull => ?_⟩⟩
  · have hread := fun a => Memory.read_write (lo := 0) hs.mem_wf s.size a b
    refine ⟨Memory.write s.mem s.size b, ?_, ?_, fun a ha => ?_⟩
    · rw [exec_bufPush_room hroom, respond_eq, rspWord_ok_valCount]
      rfl
    · rw [hread, if_pos rfl]
    · rw [hread, if_neg ha]
  · rw [exec_bufPush_full hfull, respond_eq, rspWord_ok_valCount]
    rfl

/-- Settles O29: the loop of R101 moves the suffix down, and a `from` beyond `SIZE` is an operand error. -/
theorem compactDropsTheOldestBytes : Obligations.CompactDropsTheOldestBytes := by
  refine ⟨encodedAs_row .bufCompact, fun s start hs => ⟨fun hin => ?_, fun hout => exec_of_operandOutside_eq hout⟩⟩
  obtain ⟨m, hexec, hread⟩ := exec_bufCompact_inside hs hin
  refine ⟨m, ?_, hread⟩
  rw [hexec, respond_eq, rspWord_ok_valCount]
  rfl

/-- Settles O30: only `SIZE` and the response are written. -/
theorem bufferResetEmptiesTheBuffer : Obligations.BufferResetEmptiesTheBuffer := by
  refine ⟨encodedAs_row .bufReset, fun s => ?_⟩
  rw [exec_bufReset, respond_eq, rspWord_ok_zero]
  rfl

/-- Settles O31: a valid index is answered with its byte, any other is an operand error. -/
theorem bufferReadReturnsAValidByte : Obligations.BufferReadReturnsAValidByte := by
  refine ⟨encodedAs_row .bufRead, fun s idx hs => ?_⟩
  split
  next hin => rw [exec_bufRead_inside hs hin, respond_eq, rspWord_ok_valByte]
  next hout => exact exec_of_operandOutside_eq (Nat.not_lt.mp hout)

end Sys2Proof.Proofs
end

section
/-! PROOFS of the family 42_frame_synchronizer.md. What SYNC.SCAN answers on a buffer without a frame (R127), and what
SYNC.EVICT and SYNC.FLUSH discard, report and answer (R130, R131). -/

namespace Sys2Proof.Proofs

open Sys2Proof.Machine Sys2Proof.Claims Sys2Proof.Laws

/-! ## Response words (R58, R59) -/

theorem rspWord_noFrame_zero : rspWord .noFrame 0 = 0x02000000#32 := by decide

/-- A count fills the 12 bits above it with 0, so that code and count are the word written out. -/
theorem rspWord_discarded_valCount (n : Nat) : rspWord .discarded (valCount n) = discardedWord n := by
  apply BitVec.eq_of_toNat_eq
  rw [rspWord, discardedWord, valCount, BitVec.toNat_append, BitVec.toNat_append,
    BitVec.toNat_setWidth_of_le (by decide)]
  simp [RspCode.bits]

theorem discardedWord_zero : discardedWord 0 = 0x03000000#32 := by decide

/-! ## SYNC.SCAN without a frame (R127) -/

section OnSynchronizer

variable {s : State}

/-- Bytes with a first frame are not without a frame: the first frame is itself a zero range of a candidate. -/
theorem not_noFrame_of_isFirstFrame {bytes : List Byte} {start stop : Nat} (h : IsFirstFrame bytes start stop) :
    ¬ NoFrame bytes :=
  fun hno => hno start h.candidate stop h.zero

theorem scan_of_noFrame (hs : s.Inv) (hno : NoFrame s.valid) : scan s = .ok none := by
  obtain ⟨found, hscan, hfound⟩ := scan_spec hs.size_le
  cases found with
  | none => exact hscan
  | some range => exact absurd hno (not_noFrame_of_isFirstFrame hfound)

theorem exec_syncScan_of_noFrame (hs : s.Inv) (hno : NoFrame s.valid) :
    exec .syncScan s = .next { s with rsp := s.rsp ++ [0x02000000#32] } :=
  calc exec .syncScan s
      = .next (respond .noFrame 0 s) := by rw [exec, execSyncScan, scan_of_noFrame hs hno, onOk_ok]
    _ = _ := by rw [respond_eq, rspWord_noFrame_zero]

/-! ## SYNC.EVICT and SYNC.FLUSH (R130, R131) -/

/-- The recovery the two commands share (R198), with its response: one noise record with all valid bytes, `SIZE` 0. -/
theorem discardAll_respond (hs : s.Inv) (n : Nat) :
    (onOk (discardAll s) fun t => .next (respond .discarded (valCount n) t)) =
      .next { s with size := 0, rpt := s.rpt ++ [⟨.noise, s.valid⟩], rsp := s.rsp ++ [discardedWord n] } := by
  rw [discardAll_valid hs.size_le, onOk_ok, respond_eq, rspWord_discarded_valCount]
  rfl

theorem respond_discarded_zero (s : State) :
    respond .discarded (valCount 0) s = { s with rsp := s.rsp ++ [0x03000000#32] } := by
  rw [respond_eq, rspWord_discarded_valCount, discardedWord_zero]

theorem exec_syncEvict_full (hs : s.Inv) (h : s.size = Config.capacity) :
    exec .syncEvict s = .next { s with
      size := 0, rpt := s.rpt ++ [⟨.noise, s.valid⟩], rsp := s.rsp ++ [discardedWord Config.capacity] } :=
  have hfull : isFull s = true := decide_eq_true h
  (if_pos hfull).trans (discardAll_respond hs _)

theorem exec_syncEvict_not_full (h : s.size ≠ Config.capacity) :
    exec .syncEvict s = .next { s with rsp := s.rsp ++ [0x03000000#32] } :=
  have hnot : ¬ isFull s = true := fun hfull => h (of_decide_eq_true hfull)
  (if_neg hnot).trans (congrArg _ (respond_discarded_zero s))

theorem exec_syncFlush_empty (h : s.size = 0) :
    exec .syncFlush s = .next { s with rsp := s.rsp ++ [0x03000000#32] } :=
  have hempty : isEmpty s = true := decide_eq_true h
  (if_pos hempty).trans (congrArg _ (respond_discarded_zero s))

theorem exec_syncFlush_nonempty (hs : s.Inv) (h : 0 < s.size) :
    exec .syncFlush s = .next { s with
      size := 0, rpt := s.rpt ++ [⟨.noise, s.valid⟩], rsp := s.rsp ++ [discardedWord s.size] } :=
  have hnot : ¬ isEmpty s = true := fun hempty => h.ne' (of_decide_eq_true hempty)
  (if_neg hnot).trans (discardAll_respond hs _)

end OnSynchronizer

/-! ## The obligations -/

/-- Settles O33: the scan finds nothing, and the response leaves the valid bytes as they were for the repetition. -/
theorem scanWithoutAFrameChangesNothing : Obligations.ScanWithoutAFrameChangesNothing := by
  intro s hs hno
  let t : State := { s with rsp := s.rsp ++ [0x02000000#32] }
  have ht : t.Inv := hs.respond .noFrame 0
  have hnot : NoFrame t.valid := hno
  refine ⟨exec_syncScan_of_noFrame hs hno, (exec_syncScan_of_noFrame ht hnot).trans ?_⟩
  simp [t]

/-- Settles O37: the command tests only whether the buffer is full. -/
theorem evictDiscardsAFullBuffer : Obligations.EvictDiscardsAFullBuffer :=
  ⟨encodedAs_row .syncEvict, fun _ hs => ⟨exec_syncEvict_full hs, exec_syncEvict_not_full⟩⟩

/-- Settles O38: an empty buffer gives no record, any other one record. -/
theorem flushDiscardsEverything : Obligations.FlushDiscardsEverything := by
  refine ⟨encodedAs_row .syncFlush, fun s hs => ?_⟩
  rcases Nat.eq_zero_or_pos s.size with hempty | hpos
  · rw [exec_syncFlush_empty hempty, hempty, discardedWord_zero, if_neg (lt_irrefl 0), List.append_nil, ← hempty]
  · rw [exec_syncFlush_nonempty hs hpos, if_pos hpos]

end Sys2Proof.Proofs
end

section
/-! PROOFS of the family 43_system_commands.md. What NOP and STATUS answer (R150, R151), and the fields of the status word
as the response carries them (R17, R58). -/

namespace Sys2Proof.Proofs

open Sys2Proof.Machine Sys2Proof.Claims Sys2Proof.Laws

/-! ## The fields of the status word (R17) -/

section StatusWord

variable (s : State)

theorem statusWord_zeros : (statusWord s).extractLsb' 14 10 = 0#10 := BitVec.extractLsb'_append_eq_left

theorem statusWord_empty : (statusWord s).getLsbD 13 = decide (s.size = 0) := by
  rw [statusWord, BitVec.getLsbD_append, if_pos (by decide), BitVec.getLsbD_append, if_neg (by decide),
    BitVec.getLsbD_ofBool]
  exact Bool.true_and _

theorem statusWord_full : (statusWord s).getLsbD 12 = decide (s.size = Config.capacity) := by
  rw [statusWord, BitVec.getLsbD_append, if_pos (by decide), BitVec.getLsbD_append, if_pos (by decide),
    BitVec.getLsbD_append, if_neg (by decide), BitVec.getLsbD_ofBool]
  exact Bool.true_and _

theorem statusWord_size : (statusWord s).extractLsb' 0 12 = BitVec.ofNat 12 s.size := by
  rw [statusWord, BitVec.extractLsb'_append_eq_of_add_le (by decide),
    BitVec.extractLsb'_append_eq_of_add_le (by decide), BitVec.extractLsb'_append_eq_right]

end StatusWord

/-! ## Parts of `val` in a response word (R58) -/

section PartsOfVal

variable (c : RspCode) (v : Val)

theorem rspWord_extractLsb' {start len : Nat} (h : start + len ≤ 24) :
    (rspWord c v).extractLsb' start len = v.extractLsb' start len :=
  BitVec.extractLsb'_append_eq_of_add_le h

theorem rspWord_getLsbD {i : Nat} (h : i < 24) : (rspWord c v).getLsbD i = v.getLsbD i := by
  rw [rspWord, BitVec.getLsbD_append, if_pos h]

end PartsOfVal

/-! ## NOP and STATUS (R150, R151) -/

theorem exec_nop (s : State) : exec .nop s = .next (respond .ok 0 s) := rfl

theorem exec_status (s : State) : exec .status s = .next (respond .ok (statusWord s) s) := rfl

/-- Settles O20: the response is `OK`, 0, and only the response is new. -/
theorem nopOnlyAnswers : Obligations.NopOnlyAnswers := by
  refine ⟨encodedAs_row .nop, fun s => ?_⟩
  rw [exec_nop, respond_eq, rspWord_ok_zero]

/-- Settles O21: the response carries the status word; a `SIZE` of at most `CAPACITY` fits its 12 bits. -/
theorem statusReturnsTheStatusWord : Obligations.StatusReturnsTheStatusWord := by
  refine ⟨encodedAs_row .status, fun s hsize => ⟨rspWord .ok (statusWord s), ?_, ?_, ?_, ?_, ?_, ?_⟩⟩
  · rw [exec_status, respond_eq]
  · exact rspWord_code .ok (statusWord s)
  · rw [rspWord_extractLsb' _ _ (by decide), statusWord_zeros]
  · rw [rspWord_getLsbD _ _ (by decide), statusWord_empty]
  · rw [rspWord_getLsbD _ _ (by decide), statusWord_full]
  · have hfits : s.size < 2 ^ 12 := hsize.trans_lt (by decide)
    rw [rspWord_extractLsb' _ _ (by decide), statusWord_size, BitVec.toNat_ofNat, Nat.mod_eq_of_lt hfits]

end Sys2Proof.Proofs
end

section
/-! PROOFS of the family 44_host_macros_and_collaborators.md. The three outcomes of STEP (R161): the code
of the scan's response decides whether SYNC.EVICT follows. -/

namespace Sys2Proof.Proofs

open Sys2Proof.Machine Sys2Proof.Claims Sys2Proof.Laws

/-! ## The last response and what STEP does after it -/

/-- After a response the last code is that response's. -/
theorem answered_respond (c d : RspCode) (v : Val) (s : State) :
    answered c (respond d v s) = (d.bits == c.bits) := by
  rw [answered, respond_rsp, List.getLast?_concat, Option.map_some, rspWord_code]
  rfl

section OneScan

variable {s t : State} {v : Val}

theorem stepMacro_of_found (h : exec .syncScan s = .next (respond .found v t)) :
    stepMacro s = exec .syncScan s := by
  have hcode : ¬ answered .noFrame (respond .found v t) = true := by rw [answered_respond]; decide
  rw [stepMacro, h, andThen_next, if_neg hcode]

theorem stepMacro_of_noFrame (h : exec .syncScan s = .next (respond .noFrame v t)) :
    stepMacro s = exec .syncEvict (respond .noFrame v t) := by
  have hcode : answered .noFrame (respond .noFrame v t) = true := by rw [answered_respond]; decide
  rw [stepMacro, h, andThen_next, if_pos hcode]

/-! ## The scan's response (R126, R127) -/

/-- On a buffer that holds a frame the scan finds one and confirms it without a fault. -/
theorem exec_syncScan_found (hs : s.Inv) (hframe : ¬ NoFrame s.valid) :
    ∃ v t, exec .syncScan s = .next (respond .found v t) := by
  obtain ⟨found, hscan, hfound⟩ := scan_spec hs.size_le
  cases found with
  | none => exact absurd hfound hframe
  | some range =>
    obtain ⟨start, stop⟩ := range
    obtain ⟨hlt, hle, -⟩ := IsFirstFrame.zero hfound
    rw [State.valid_length] at hle
    obtain ⟨m, hm, -⟩ := confirmFrame_valid hs hlt hle
    have hexec : exec .syncScan s =
        onOk (confirmFrame start stop s) fun t => .next (respond .found (valPair start stop) t) := by
      rw [exec, execSyncScan, hscan, onOk_ok]
    rw [hm, onOk_ok] at hexec
    exact ⟨_, _, hexec⟩

/-- STEP on a buffer without a frame: SYNC.EVICT in the state that differs by the response NOFRAME. -/
theorem stepMacro_eq_syncEvict (hs : s.Inv) (hno : NoFrame s.valid) :
    stepMacro s = exec .syncEvict { s with rsp := s.rsp ++ [0x02000000#32] } := by
  rw [← rspWord_noFrame_zero, ← respond_eq]
  refine stepMacro_of_noFrame ?_
  rw [exec_syncScan_of_noFrame hs hno, ← rspWord_noFrame_zero, ← respond_eq]

end OneScan

/-! ## The obligation -/

/-- Settles O45: a scan that finds a frame ends STEP; else SYNC.EVICT follows, which tests only whether the buffer
is full, and the response NOFRAME before it leaves the valid bytes and `SIZE` as they were. -/
theorem stepMacroHasThreeOutcomes : Obligations.StepMacroHasThreeOutcomes := by
  intro s hs
  refine ⟨fun start stop hfirst => ?_, fun hno hroom => ?_, fun hno hfull => ?_⟩
  · obtain ⟨v, t, hscan⟩ := exec_syncScan_found hs (not_noFrame_of_isFirstFrame hfirst)
    exact stepMacro_of_found hscan
  · have hnot : State.size { s with rsp := s.rsp ++ [0x02000000#32] } ≠ Config.capacity := hroom.ne
    refine (stepMacro_eq_syncEvict hs hno).trans ((exec_syncEvict_not_full hnot).trans ?_)
    rw [List.append_assoc, List.singleton_append]
  · have hs' : State.Inv { s with rsp := s.rsp ++ [0x02000000#32] } := hs.respond .noFrame 0
    refine (stepMacro_eq_syncEvict hs hno).trans ((exec_syncEvict_full hs' hfull).trans ?_)
    rw [List.append_assoc, List.singleton_append]
    rfl

end Sys2Proof.Proofs
end

section
/-! PROOFS of the family 'other', part 1: the command word (30_encoding.md part B.1). Decode and encode are each other's
inverse: a row's word carries the operands it was packed from, and a word that matches a row has no bit beside its `op`
byte and its operands. -/

namespace Sys2Proof.Proofs

open Sys2Proof.Machine Sys2Proof.Claims Sys2Proof.Laws

/-! ## Decode after encode -/

/-- The word of `i` matches the row of `i` (R56). -/
theorem encode_matches_row (i : Instr) : encode i &&& i.opcode.mask = i.opcode.pattern := by
  cases i with
  | nop => exact EncodesItsRow.nop.2
  | status => exact EncodesItsRow.status.2
  | srst => exact EncodesItsRow.srst.2
  | crcInit => exact EncodesItsRow.crcInit.2
  | crcByte byte => exact (EncodesItsRow.crcByte byte).2
  | crcRead => exact EncodesItsRow.crcRead.2
  | crcEmit => exact EncodesItsRow.crcEmit.2
  | crcRange off len => exact (EncodesItsRow.crcRange off len).2
  | bufPush byte => exact (EncodesItsRow.bufPush byte).2
  | bufCompact start => exact (EncodesItsRow.bufCompact start).2
  | bufReset => exact EncodesItsRow.bufReset.2
  | bufRead idx => exact (EncodesItsRow.bufRead idx).2
  | syncScan => exact EncodesItsRow.syncScan.2
  | syncEvict => exact EncodesItsRow.syncEvict.2
  | syncFlush => exact EncodesItsRow.syncFlush.2

/-- The operands read back from the word of `i` are those of `i`, when they fit their fields (R55). -/
theorem assemble_encode {i : Instr} (h : i.wf = true) : assemble i.opcode (encode i) = i := by
  cases i with
  | crcByte byte => exact congrArg Instr.crcByte (byteField_packFields _ _ byte)
  | bufPush byte => exact congrArg Instr.bufPush (byteField_packFields _ _ byte)
  | crcRange off len =>
    obtain ⟨hoff, hlen⟩ := Bool.and_eq_true_iff.mp h
    exact congrArg₂ Instr.crcRange
      ((aField_packFields _ off len).trans (Nat.mod_eq_of_lt ((fitsField_iff off).mp hoff)))
      ((bField_packFields _ off len).trans (Nat.mod_eq_of_lt ((fitsField_iff len).mp hlen)))
  | bufCompact start =>
    exact congrArg Instr.bufCompact
      ((bField_packFields _ 0 start).trans (Nat.mod_eq_of_lt ((fitsField_iff start).mp h)))
  | bufRead idx =>
    exact congrArg Instr.bufRead ((bField_packFields _ 0 idx).trans (Nat.mod_eq_of_lt ((fitsField_iff idx).mp h)))
  | _ => rfl

/-- Settles O2: the word matches the row of the command, and its fields give the operands back. -/
theorem decodeOfEncodeIsTheCommand : Obligations.DecodeOfEncodeIsTheCommand := fun i hwf =>
  (decode_of_match (encode_matches_row i)).trans (congrArg Except.ok (assemble_encode hwf))

/-! ## Encode after decode -/

/-- A word that decodes matches the row of the command it decodes to, and carries the command's operands (R57). -/
theorem decode_eq_ok {w : CmdWord} {i : Instr} (h : decode w = .ok i) :
    ∃ o : Opcode, w &&& o.mask = o.pattern ∧ i = assemble o w := by
  rw [decode] at h
  split at h
  · cases h
  next o _ =>
    split at h
    next hmatch => cases h; exact ⟨o, hmatch, rfl⟩
    next => cases h

section Fields

variable {w : CmdWord} {o : Opcode}

/-- Bits that a row's mask fixes are, in a word that matches the row, those of the row's `match` word. -/
theorem extract_of_match {start len : Nat} (h : w &&& o.mask = o.pattern)
    (hmask : o.mask.extractLsb' start len = BitVec.allOnes len) :
    w.extractLsb' start len = o.pattern.extractLsb' start len := by
  rw [← h, BitVec.extractLsb'_and, hmask, BitVec.and_allOnes]

theorem aField_lt (w : CmdWord) : aField w < 4096 := (w.extractLsb' 12 12).isLt

theorem bField_lt (w : CmdWord) : bField w < 4096 := (w.extractLsb' 0 12).isLt

theorem aField_eq_zero (h : w.extractLsb' 12 12 = 0#12) : aField w = 0 := by rw [aField, h]; rfl

theorem bField_eq_zero (h : w.extractLsb' 0 12 = 0#12) : bField w = 0 := by rw [bField, h]; rfl

/-- Field `b` is its byte operand when the four bits above the byte are 0. -/
theorem bField_eq_byteField (h : w.extractLsb' 8 4 = 0#4) : bField w = (byteField w).toNat := by
  have h' := congrArg BitVec.toNat h
  simp only [bField, byteField, BitVec.extractLsb'_toNat, BitVec.toNat_ofNat, Nat.shiftRight_eq_div_pow] at h' ⊢
  omega

/-- The word of a row whose operands are those the word carries is that word, when the fields no operand uses are 0. -/
theorem encode_assemble_eq (h : w &&& o.mask = o.pattern) (hrow : (assemble o w).opcode = o)
    (ha : (assemble o w).aOperand = aField w) (hb : (assemble o w).bOperand = bField w) :
    encode (assemble o w) = w := by
  rw [encode, hrow, ha, hb, ← opField_of_match h, packFields_fields]

end Fields

/-- A word that matches a row is the word of the row's command with the operands it carries. -/
theorem encode_assemble {w : CmdWord} {o : Opcode} (h : w &&& o.mask = o.pattern) : encode (assemble o w) = w := by
  have ha : o.mask.extractLsb' 12 12 = BitVec.allOnes 12 → o.pattern.extractLsb' 12 12 = 0#12 → 0 = aField w :=
    fun hm hp => (aField_eq_zero ((extract_of_match h hm).trans hp)).symm
  have hb : o.mask.extractLsb' 0 12 = BitVec.allOnes 12 → o.pattern.extractLsb' 0 12 = 0#12 → 0 = bField w :=
    fun hm hp => (bField_eq_zero ((extract_of_match h hm).trans hp)).symm
  have hbyte : o.mask.extractLsb' 8 4 = BitVec.allOnes 4 → o.pattern.extractLsb' 8 4 = 0#4 →
      (byteField w).toNat = bField w :=
    fun hm hp => (bField_eq_byteField ((extract_of_match h hm).trans hp)).symm
  cases o with
  | crcByte | bufPush =>
    exact encode_assemble_eq h rfl (ha (by decide) (by decide)) (hbyte (by decide) (by decide))
  | crcRange => exact encode_assemble_eq h rfl rfl rfl
  | bufCompact | bufRead => exact encode_assemble_eq h rfl (ha (by decide) (by decide)) rfl
  | _ => exact encode_assemble_eq h rfl (ha (by decide) (by decide)) (hb (by decide) (by decide))

/-- The operands a word carries fit their fields. -/
theorem wf_assemble (o : Opcode) (w : CmdWord) : (assemble o w).wf = true := by
  have ha := (fitsField_iff _).mpr (aField_lt w)
  have hb := (fitsField_iff _).mpr (bField_lt w)
  cases o with
  | crcRange => exact Bool.and_eq_true_iff.mpr ⟨ha, hb⟩
  | bufCompact | bufRead => exact hb
  | _ => rfl

/-- Settles O3: a word that decodes matches its row, so that its fields packed again are the word. -/
theorem encodeOfDecodeIsTheWord : Obligations.EncodeOfDecodeIsTheWord := by
  intro w i h
  obtain ⟨o, hmatch, rfl⟩ := decode_eq_ok h
  exact ⟨wf_assemble o w, encode_assemble hmatch⟩

end Sys2Proof.Proofs
end

section
/-! PROOFS of the family 'other', part 2: first frames (42_frame_synchronizer.md R125), and what a scan does with the
one it finds (R121, R126). -/

namespace Sys2Proof.Proofs

open Sys2Proof.Machine Sys2Proof.Claims Sys2Proof.Laws

/-! ## First frames (R125) -/

section FirstFrame

variable {bytes : List Byte} {a b c d : Nat}

/-- Bytes that are not without a frame have a first one: the smallest start that has a zero range, and its smallest
end. -/
theorem exists_firstFrame_of_not_noFrame (h : ¬ NoFrame bytes) : ∃ start stop, IsFirstFrame bytes start stop := by
  classical
  have hstart : ∃ c, IsCandidate bytes c ∧ ∃ e, IsZeroRange bytes c e := by
    by_contra hnone
    exact h fun c hc e he => hnone ⟨c, hc, e, he⟩
  obtain ⟨hcand, hstop⟩ := Nat.find_spec hstart
  refine ⟨Nat.find hstart, Nat.find hstop, hcand, Nat.find_spec hstop, fun e he => Nat.find_min hstop he, ?_⟩
  exact fun c hc hcand' e he => Nat.find_min hstart hc ⟨hcand', e, he⟩

theorem noFrame_or_firstFrame (bytes : List Byte) : NoFrame bytes ∨ ∃ start stop, IsFirstFrame bytes start stop :=
  or_iff_not_imp_left.mpr exists_firstFrame_of_not_noFrame

/-- No first frame starts before another. -/
theorem firstFrame_start_le (h : IsFirstFrame bytes a b) (k : IsFirstFrame bytes c d) : c ≤ a :=
  Nat.not_lt.mp fun hlt => k.lowest a hlt h.candidate b h.zero

/-- Of two first frames with one start none ends before the other. -/
theorem firstFrame_stop_le (h : IsFirstFrame bytes a b) (k : IsFirstFrame bytes a d) : d ≤ b :=
  Nat.not_lt.mp fun hlt => k.shortest b hlt h.zero

theorem firstFrame_unique (h : IsFirstFrame bytes a b) (k : IsFirstFrame bytes c d) : a = c ∧ b = d := by
  obtain rfl : a = c := le_antisymm (firstFrame_start_le k h) (firstFrame_start_le h k)
  exact ⟨rfl, le_antisymm (firstFrame_stop_le k h) (firstFrame_stop_le h k)⟩

end FirstFrame

/-- Settles O34: the least start and the least end are unique, and exist unless no candidate has a zero range. -/
theorem firstFrameIsUniqueOrAbsent : Obligations.FirstFrameIsUniqueOrAbsent := fun bytes =>
  ⟨(noFrame_or_firstFrame bytes).symm, fun _ _ _ _ => firstFrame_unique, fun _ _ => not_noFrame_of_isFirstFrame⟩

/-! ## SYNC.SCAN on a buffer that holds a frame (R121, R126) -/

/-- The records of a confirmed frame `[start, stop)`: the noise before it, if there is any, then the frame (R126). -/
def frameReports (bytes : List Byte) (start stop : Nat) : List Report :=
  (if 0 < start then [⟨.noise, bytes.take start⟩] else []) ++ [⟨.frame, (bytes.drop start).take (stop - start)⟩]

section ScanOfAFrame

variable {s : State} {start stop : Nat}

theorem firstFrame_stop_le_size (h : IsFirstFrame s.valid start stop) : stop ≤ s.size := by
  obtain ⟨-, hle, -⟩ := h.zero
  rwa [State.valid_length] at hle

theorem scan_of_firstFrame (hs : s.Inv) (h : IsFirstFrame s.valid start stop) :
    scan s = .ok (some (start, stop)) := by
  obtain ⟨found, hscan, hfound⟩ := scan_spec hs.size_le
  cases found with
  | none => exact absurd hfound (not_noFrame_of_isFirstFrame h)
  | some range =>
    obtain ⟨a, b⟩ := range
    obtain ⟨rfl, rfl⟩ := firstFrame_unique h hfound
    exact hscan

theorem rspWord_found_valPair (start stop : Nat) : rspWord .found (valPair start stop) = foundWord start stop := rfl

/-- The scan confirms the first frame: its records, the bytes behind it moved down, FOUND. -/
theorem exec_syncScan_of_firstFrame (hs : s.Inv) (h : IsFirstFrame s.valid start stop) :
    ∃ m, exec .syncScan s = .next { s with
        mem := m
        size := s.size - stop
        rpt := s.rpt ++ frameReports s.valid start stop
        rsp := s.rsp ++ [foundWord start stop] } ∧
      ∀ a, Memory.read m a = if a < s.size - stop then Memory.read s.mem (stop + a) else Memory.read s.mem a := by
  obtain ⟨m, hm, -, -, hread⟩ := confirmFrame_valid hs h.zero.1 (firstFrame_stop_le_size h)
  refine ⟨m, ?_, hread⟩
  rw [exec, execSyncScan, scan_of_firstFrame hs h, onOk_ok]
  dsimp only
  rw [hm, onOk_ok, respond_eq, rspWord_found_valPair, List.append_assoc]
  rfl

end ScanOfAFrame

/-- Settles O32: the scan answers the first frame, which is unique, and its recovery is that of R126. -/
theorem scanConfirmsTheFirstFrame : Obligations.ScanConfirmsTheFirstFrame := by
  refine ⟨encodedAs_row .syncScan, fun s start stop hs h => ?_⟩
  obtain ⟨m, hexec, hread⟩ := exec_syncScan_of_firstFrame hs h
  exact ⟨m, by rw [hexec, frameReports, List.append_assoc], hread⟩

end Sys2Proof.Proofs
end

section
/-! PROOFS of the family 'other', part 3: rules over all commands and steps. The invariant, who writes which element,
streams that only grow, reading without a side effect, legal outputs, and the account of accepted bytes. -/

namespace Sys2Proof.Proofs

open Sys2Proof.Machine Sys2Proof.Claims Sys2Proof.Laws

/-! ## The invariant (10_state.md R11, R21) -/

/-- A command that ends keeps the invariant, because from a state that meets it every command ends in one that does. -/
theorem exec_keeps_inv {i : Instr} {s t : State} (hs : s.Inv) (h : exec i s = .next t) : t.Inv := by
  obtain ⟨c, v, u, hexec, hu, -⟩ := exec_answers hs i
  cases h.symm.trans hexec
  exact hu.respond c v

/-- Settles O10: each of the four things a step can do keeps the invariant. -/
theorem stepKeepsTheInvariant : Obligations.StepKeepsTheInvariant := by
  intro s t hs h
  obtain ⟨-, rfl⟩ | ⟨rest, -, rfl⟩ | ⟨w, rest, i, -, -, hexec⟩ | ⟨w, rest, e, -, -, rfl⟩ := step_cases h
  · exact hs
  · exact inv_applyReset (hs.setCmd rest)
  · exact exec_keeps_inv (hs.setCmd rest) hexec
  · exact (hs.setCmd rest).respond _ _

/-! ## The writers of each element (10_state.md R10 to R12, 30_encoding.md R61, 41_frame_buffer.md R104) -/

/-- Settles O39: by the command, its next state written out; a clause about an element that the command writes has a
hypothesis that it is another command. -/
theorem eachElementHasItsWriters : Obligations.EachElementHasItsWriters := by
  intro i s t h
  obtain ⟨w, hw⟩ := exec_next_shape h
  cases i with
  | nop | status | crcRead | crcRange | bufRead =>
    subst hw
    exact ⟨fun _ _ _ => rfl, fun _ _ _ => rfl, fun _ _ _ _ _ _ _ => rfl, fun _ => rfl, fun _ _ _ => rfl, rfl⟩
  | srst =>
    subst hw
    exact ⟨fun _ _ hne => absurd rfl hne, fun _ _ _ => rfl, fun _ _ _ hne => absurd rfl hne, fun _ => rfl,
      fun _ _ _ => rfl, rfl⟩
  | crcInit =>
    subst hw
    exact ⟨fun hne => absurd rfl hne, fun _ _ _ => rfl, fun _ _ _ _ _ _ _ => rfl, fun _ => rfl, fun _ _ _ => rfl, rfl⟩
  | crcByte b =>
    subst hw
    exact ⟨fun _ hne => absurd rfl (hne b), fun _ _ _ => rfl, fun _ _ _ _ _ _ _ => rfl, fun _ => rfl,
      fun _ _ _ => rfl, rfl⟩
  | crcEmit =>
    subst hw
    exact ⟨fun _ _ _ => rfl, fun _ _ _ => rfl, fun _ _ _ _ _ _ _ => rfl, fun hne => absurd rfl hne,
      fun _ _ _ => rfl, rfl⟩
  | bufReset =>
    subst hw
    exact ⟨fun _ _ _ => rfl, fun _ _ _ => rfl, fun _ _ hne => absurd rfl hne, fun _ => rfl, fun _ _ _ => rfl, rfl⟩
  | bufPush b =>
    obtain ⟨m, n, rfl⟩ := hw
    exact ⟨fun _ _ _ => rfl, fun hne => absurd rfl (hne b), fun hne => absurd rfl (hne b), fun _ => rfl,
      fun _ _ _ => rfl, rfl⟩
  | bufCompact start =>
    obtain ⟨m, n, rfl⟩ := hw
    exact ⟨fun _ _ _ => rfl, fun _ hne => absurd rfl (hne start), fun _ hne => absurd rfl (hne start), fun _ => rfl,
      fun _ _ _ => rfl, rfl⟩
  | syncScan =>
    obtain ⟨m, n, reports, rfl⟩ := hw
    exact ⟨fun _ _ _ => rfl, fun _ _ hne => absurd rfl hne, fun _ _ _ _ hne => absurd rfl hne, fun _ => rfl,
      fun hne => absurd rfl hne, rfl⟩
  | syncEvict =>
    refine ⟨?_, ?_, fun _ _ _ _ _ hne => absurd rfl hne, ?_, fun _ hne => absurd rfl hne, ?_⟩ <;>
      obtain rfl | ⟨bytes, rfl⟩ := hw <;> intros <;> rfl
  | syncFlush =>
    refine ⟨?_, ?_, fun _ _ _ _ _ _ hne => absurd rfl hne, ?_, fun _ _ hne => absurd rfl hne, ?_⟩ <;>
      obtain rfl | ⟨bytes, rfl⟩ := hw <;> intros <;> rfl

section Writers

variable {i : Instr} {s t : State}

/-- Only the synchronizer commands report (41_frame_buffer.md R104). -/
theorem exec_rpt (h : exec i s = .next t) (hscan : i ≠ .syncScan) (hevict : i ≠ .syncEvict) (hflush : i ≠ .syncFlush) :
    t.rpt = s.rpt := by
  obtain ⟨-, -, -, -, hrpt, -⟩ := eachElementHasItsWriters i s t h
  exact hrpt hscan hevict hflush

/-- Only CRC.EMIT transmits (30_encoding.md R61). -/
theorem exec_tx (h : exec i s = .next t) (hemit : i ≠ .crcEmit) : t.tx = s.tx := by
  obtain ⟨-, -, -, htx, -, -⟩ := eachElementHasItsWriters i s t h
  exact htx hemit

end Writers

/-! ## Output streams only grow (10_state.md R16) -/

section Growth

variable {i : Instr} {s t : State}

/-- A command appends exactly one response word. -/
theorem exec_rsp (h : exec i s = .next t) : ∃ w, t.rsp = s.rsp ++ [w] := by
  obtain ⟨w, hw⟩ := exec_next_shape h
  refine ⟨w, ?_⟩
  cases i with
  | bufPush | bufCompact => obtain ⟨m, n, rfl⟩ := hw; rfl
  | syncScan => obtain ⟨m, n, reports, rfl⟩ := hw; rfl
  | syncEvict | syncFlush => obtain rfl | ⟨bytes, rfl⟩ := hw <;> rfl
  | _ => subst hw; rfl

theorem exec_rpt_grows (h : exec i s = .next t) : s.rpt <+: t.rpt := by
  obtain ⟨w, hw⟩ := exec_next_shape h
  cases i with
  | syncScan => obtain ⟨m, n, reports, rfl⟩ := hw; exact ⟨reports, rfl⟩
  | syncEvict | syncFlush =>
    obtain rfl | ⟨bytes, rfl⟩ := hw
    · exact List.prefix_rfl
    · exact ⟨[⟨.noise, bytes⟩], rfl⟩
  | _ => rw [exec_rpt h nofun nofun nofun]

theorem exec_tx_grows (h : exec i s = .next t) : s.tx <+: t.tx := by
  by_cases hemit : i = .crcEmit
  · subst hemit
    obtain ⟨w, rfl⟩ := exec_next_shape h
    exact ⟨_, rfl⟩
  · rw [exec_tx h hemit]

end Growth

/-- Settles O13: a command appends, an error appends one response, and the reset event and waiting append nothing. -/
theorem outputStreamsOnlyGrow : Obligations.OutputStreamsOnlyGrow := by
  intro s t h
  obtain ⟨-, rfl⟩ | ⟨rest, -, rfl⟩ | ⟨w, rest, i, -, -, hexec⟩ | ⟨w, rest, e, -, -, rfl⟩ := step_cases h
  · exact ⟨List.prefix_rfl, List.prefix_rfl, List.prefix_rfl⟩
  · exact ⟨List.prefix_rfl, List.prefix_rfl, List.prefix_rfl⟩
  · obtain ⟨r, hr⟩ := exec_rsp hexec
    have hrpt := exec_rpt_grows hexec
    have htx := exec_tx_grows hexec
    exact ⟨⟨[r], hr.symm⟩, hrpt, htx⟩
  · exact ⟨⟨_, rfl⟩, List.prefix_rfl, List.prefix_rfl⟩

/-! ## Reading (20_memory.md R37) -/

/-- What a range reads as depends on `BUF` and `SIZE` only. -/
theorem readRange_congr {s t : State} (hmem : s.mem = t.mem) (hsize : s.size = t.size) (off n : Nat) :
    readRange s off n = readRange t off n := by
  induction n generalizing off with
  | zero => rfl
  | succ n ih => rw [readRange, readRange, memRead, memRead, hmem, hsize, ih]

/-- A reading command that answers gives the same response on top of whatever was answered before it, and changes
nothing else. -/
theorem exec_read_answer {i : Instr} {s t : State}
    (hi : (∃ n, i = .bufRead n) ∨ (∃ off len, i = .crcRange off len) ∨ i = .crcRead ∨ i = .status)
    (h : exec i s = .next t) : ∃ w, ∀ r, exec i { s with rsp := r } = .next { s with rsp := r ++ [w] } := by
  obtain ⟨n, rfl⟩ | ⟨off, len, rfl⟩ | rfl | rfl := hi
  · by_cases hin : indexInside n s = true
    · obtain ⟨b, hb, -⟩ := onOk_eq_next.mp ((if_pos hin).symm.trans h)
      refine ⟨rspWord .ok (valByte b), fun r => (if_pos hin).trans ?_⟩
      have hb' : memRead { s with rsp := r } n = .ok b := hb
      rw [hb', onOk_ok, respond_eq]
    · exact ⟨_, fun r => if_neg hin⟩
  · by_cases hin : rangeInside off len s = true
    · obtain ⟨bytes, hbytes, -⟩ := onOk_eq_next.mp ((if_pos hin).symm.trans h)
      refine ⟨rspWord .ok (valCrc (crc16 bytes)), fun r => (if_pos hin).trans ?_⟩
      have hcongr := readRange_congr (s := { s with rsp := r }) (t := s) rfl rfl off len
      rw [hcongr, hbytes, onOk_ok, respond_eq]
    · exact ⟨_, fun r => if_neg hin⟩
  · exact ⟨rspWord .ok (valCrc s.uacc), fun r => rfl⟩
  · exact ⟨rspWord .ok (statusWord s), fun r => rfl⟩

/-- Settles O40: the answer does not depend on what was answered before. -/
theorem readingHasNoSideEffect : Obligations.ReadingHasNoSideEffect := by
  intro i s t hi h
  obtain ⟨w, hw⟩ := exec_read_answer hi h
  have hfirst : exec i s = .next { s with rsp := s.rsp ++ [w] } := hw s.rsp
  cases h.symm.trans hfirst
  refine ⟨w, rfl, (hw (s.rsp ++ [w])).trans ?_⟩
  rw [List.append_assoc, List.singleton_append]

/-! ## What is reported, and the account of bytes (20_memory.md R42, 44_host_macros_and_collaborators.md R168) -/

/-- From `s` to `t` the block reported legal records that, in order, are the valid bytes it no longer holds. -/
def ReportsWhatItDrops (s t : State) : Prop :=
  ∃ records : List Report, t.rpt = s.rpt ++ records ∧ (∀ r ∈ records, r.legal = true) ∧
    (records.map Report.bytes).flatten ++ t.valid = s.valid

section Reporting

variable {s t : State}

theorem report_legal_iff (r : Report) : r.legal = true ↔ 1 ≤ r.bytes.length ∧ r.bytes.length ≤ Config.capacity := by
  simp [Report.legal]

theorem reportsWhatItDrops_of_eq (hrpt : t.rpt = s.rpt) (hvalid : t.valid = s.valid) : ReportsWhatItDrops s t :=
  ⟨[], by rw [hrpt, List.append_nil], nofun, hvalid⟩

/-- The recovery of SYNC.EVICT and SYNC.FLUSH reports everything as one record. -/
theorem reportsWhatItDrops_of_discard (hs : s.Inv) (hpos : 0 < s.size) (hrpt : t.rpt = s.rpt ++ [⟨.noise, s.valid⟩])
    (hsize : t.size = 0) : ReportsWhatItDrops s t := by
  refine ⟨_, hrpt, fun r hr => ?_, ?_⟩
  · obtain rfl := List.mem_singleton.mp hr
    have hlength := State.valid_length s
    exact (report_legal_iff _).mpr ⟨hpos.trans_eq hlength.symm, hlength.trans_le hs.size_le⟩
  · simp [State.valid_of_size_zero hsize]

theorem frameReports_flatten {bytes : List Byte} {start stop : Nat} (h : start ≤ stop) :
    ((frameReports bytes start stop).map Report.bytes).flatten = bytes.take stop := by
  have hsplit : bytes.take start ++ (bytes.drop start).take (stop - start) = bytes.take stop := by
    rw [← List.take_add, Nat.add_sub_cancel' h]
  rw [frameReports, ← hsplit]
  split
  next => simp
  next hzero => simp [Nat.eq_zero_of_not_pos hzero]

theorem frameReports_legal {bytes : List Byte} {start stop : Nat} (h : IsFirstFrame bytes start stop)
    (hlen : bytes.length ≤ Config.capacity) : ∀ r ∈ frameReports bytes start stop, r.legal = true := by
  obtain ⟨hlt, hle, -⟩ := h.zero
  intro r hr
  rw [report_legal_iff]
  obtain hnoise | hframe := List.mem_append.mp hr
  · split at hnoise
    · obtain rfl := List.mem_singleton.mp hnoise
      simp only [List.length_take]
      omega
    · cases hnoise
  · obtain rfl := List.mem_singleton.mp hframe
    simp only [List.length_take, List.length_drop]
    omega

theorem reportsWhatItDrops_syncScan (hs : s.Inv) (h : exec .syncScan s = .next t) : ReportsWhatItDrops s t := by
  obtain hno | ⟨start, stop, hfirst⟩ := noFrame_or_firstFrame s.valid
  · cases h.symm.trans (exec_syncScan_of_noFrame hs hno)
    exact reportsWhatItDrops_of_eq rfl rfl
  · obtain ⟨m, hexec, hread⟩ := exec_syncScan_of_firstFrame hs hfirst
    cases h.symm.trans hexec
    refine ⟨_, rfl, frameReports_legal hfirst ((State.valid_length s).trans_le hs.size_le), ?_⟩
    rw [frameReports_flatten hfirst.zero.1.le]
    exact (congrArg _ (State.valid_compacted hread)).trans (List.take_append_drop stop s.valid)

theorem reportsWhatItDrops_syncEvict (hs : s.Inv) (h : exec .syncEvict s = .next t) : ReportsWhatItDrops s t := by
  by_cases hfull : s.size = Config.capacity
  · cases h.symm.trans (exec_syncEvict_full hs hfull)
    exact reportsWhatItDrops_of_discard hs (by rw [hfull]; decide) rfl rfl
  · cases h.symm.trans (exec_syncEvict_not_full hfull)
    exact reportsWhatItDrops_of_eq rfl rfl

theorem reportsWhatItDrops_syncFlush (hs : s.Inv) (h : exec .syncFlush s = .next t) : ReportsWhatItDrops s t := by
  obtain hempty | hpos := Nat.eq_zero_or_pos s.size
  · cases h.symm.trans (exec_syncFlush_empty hempty)
    exact reportsWhatItDrops_of_eq rfl rfl
  · cases h.symm.trans (exec_syncFlush_nonempty hs hpos)
    exact reportsWhatItDrops_of_discard hs hpos rfl rfl

/-- Reporting what is dropped keeps the account. -/
theorem ReportsWhatItDrops.account (h : ReportsWhatItDrops s t) : t.account = s.account := by
  obtain ⟨records, hrpt, -, hbytes⟩ := h
  rw [State.account, State.account, hrpt, List.map_append, List.flatten_append, List.append_assoc, hbytes]

end Reporting

/-- A state whose reports and valid bytes are as before but for bytes appended has them appended to its account. -/
theorem account_of_appended {s t : State} {new : List Byte} (hrpt : t.rpt = s.rpt) (hvalid : t.valid = s.valid ++ new) :
    t.account = s.account ++ new := by
  rw [State.account, State.account, hrpt, hvalid, List.append_assoc]

/-- What a push of `b` accepts in `s`: the byte if there is room (R100). -/
def pushed (b : Byte) (s : State) : List Byte := if s.size < Config.capacity then [b] else []

/-- A push appends what it accepts to the valid bytes. -/
theorem exec_bufPush_valid {s t : State} (hs : s.Inv) {b : Byte} (h : exec (.bufPush b) s = .next t) :
    t.valid = s.valid ++ pushed b s := by
  obtain hroom | hfull := hs.size_le.lt_or_eq
  · cases h.symm.trans (exec_bufPush_room hroom b)
    rw [pushed, if_pos hroom]
    exact State.valid_appended hs.mem_wf b
  · cases h.symm.trans (exec_bufPush_full hfull b)
    rw [pushed, if_neg hfull.not_lt, List.append_nil]
    rfl

/-- Settles O41: a synchronizer command reports what it drops, a push appends what it accepts, and the other commands
leave `BUF`, `SIZE` and `RPT` alone. -/
theorem acceptedBytesAreReportedOnceInOrder : Obligations.AcceptedBytesAreReportedOnceInOrder := by
  intro i s t hs hcompact hreset hsrst h
  cases i with
  | srst => exact absurd rfl hsrst
  | bufReset => exact absurd rfl hreset
  | bufCompact n => exact absurd rfl (hcompact n)
  | bufPush b => exact account_of_appended (exec_rpt h nofun nofun nofun) (exec_bufPush_valid hs h)
  | syncScan => exact (reportsWhatItDrops_syncScan hs h).account.trans (List.append_nil _).symm
  | syncEvict => exact (reportsWhatItDrops_syncEvict hs h).account.trans (List.append_nil _).symm
  | syncFlush => exact (reportsWhatItDrops_syncFlush hs h).account.trans (List.append_nil _).symm
  | _ =>
    obtain ⟨-, hmem, hsize, -, hrpt, -⟩ := eachElementHasItsWriters _ s t h
    refine account_of_appended (hrpt nofun nofun nofun) ?_
    rw [List.append_nil]
    exact State.valid_congr (hsize nofun nofun nofun nofun nofun nofun nofun) fun a _ => by
      rw [hmem nofun nofun nofun]

/-! ## Legal outputs (30_encoding.md part B.2 and B.3) -/

section LegalOutputs

variable {s t : State}

theorem outputsLegal_iff (s : State) :
    s.outputsLegal = true ↔ (∀ r ∈ s.rpt, r.legal = true) ∧ ∀ w ∈ s.rsp, legalResponse w = true := by
  simp [State.outputsLegal]

/-- Legal outputs stay legal when legal records and a response are appended. -/
theorem outputsLegal_of_appended (hs : s.outputsLegal = true) {records : List Report}
    (hrpt : t.rpt = s.rpt ++ records) (hlegal : ∀ r ∈ records, r.legal = true) {c : RspCode} {v : Val}
    (hrsp : t.rsp = s.rsp ++ [rspWord c v]) : t.outputsLegal = true := by
  obtain ⟨hrecords, hwords⟩ := (outputsLegal_iff s).mp hs
  rw [outputsLegal_iff, hrpt, hrsp]
  refine ⟨fun r hr => (List.mem_append.mp hr).elim (hrecords r) (hlegal r), fun w hw => ?_⟩
  obtain hold | hnew := List.mem_append.mp hw
  · exact hwords w hold
  · obtain rfl := List.mem_singleton.mp hnew
    exact legalResponse_rspWord c v

/-- The records a command appends are legal. -/
theorem exec_records_legal (hs : s.Inv) {i : Instr} (h : exec i s = .next t) :
    ∃ records, t.rpt = s.rpt ++ records ∧ ∀ r ∈ records, r.legal = true := by
  have ofReports : ReportsWhatItDrops s t → ∃ records, t.rpt = s.rpt ++ records ∧ ∀ r ∈ records, r.legal = true :=
    fun ⟨records, hrpt, hlegal, _⟩ => ⟨records, hrpt, hlegal⟩
  cases i with
  | syncScan => exact ofReports (reportsWhatItDrops_syncScan hs h)
  | syncEvict => exact ofReports (reportsWhatItDrops_syncEvict hs h)
  | syncFlush => exact ofReports (reportsWhatItDrops_syncFlush hs h)
  | _ => exact ⟨[], by rw [exec_rpt h nofun nofun nofun, List.append_nil], nofun⟩

theorem exec_outputsLegal (hs : s.Inv) (hlegal : s.outputsLegal = true) {i : Instr} (h : exec i s = .next t) :
    t.outputsLegal = true := by
  obtain ⟨records, hrpt, hrecords⟩ := exec_records_legal hs h
  obtain ⟨c, v, u, hexec, -, hrsp⟩ := exec_answers hs i
  cases h.symm.trans hexec
  exact outputsLegal_of_appended hlegal hrpt hrecords (by rw [respond_rsp, hrsp])

end LegalOutputs

/-- Settles O12: a command appends legal records and one response, an error one response. -/
theorem stepKeepsOutputsLegal : Obligations.StepKeepsOutputsLegal := by
  intro s t hs hlegal h
  obtain ⟨-, rfl⟩ | ⟨rest, -, rfl⟩ | ⟨w, rest, i, -, -, hexec⟩ | ⟨w, rest, e, -, -, rfl⟩ := step_cases h
  · exact hlegal
  · exact hlegal
  · exact exec_outputsLegal (hs.setCmd rest) hlegal hexec
  · exact outputsLegal_of_appended hlegal (List.append_nil _).symm nofun rfl

end Sys2Proof.Proofs
end

section
/-! PROOFS of the family 'other', part 4: stale bytes are invisible (10_state.md R10, R21). What a command answers and
leaves is a function of the view of the state it was given. -/

namespace Sys2Proof.Proofs

open Sys2Proof.Machine Sys2Proof.Claims Sys2Proof.Laws

/-- Both outcomes are next states, and these differ in stale bytes only. -/
def SameOutcome (o p : Out) : Prop := ∃ s t, o = .next s ∧ p = .next t ∧ s.SameView t

section View

variable {s t : State}

/-! ## The view through the operations -/

theorem sameView_respond (h : s.SameView t) (c : RspCode) (v : Val) : (respond c v s).SameView (respond c v t) :=
  { h with rsp_eq := congrArg (· ++ [rspWord c v]) h.rsp_eq }

theorem sameView_setUacc (h : s.SameView t) (c : Crc) : (s.setUacc c).SameView (t.setUacc c) :=
  { h with uacc_eq := rfl }

theorem sameView_setCmd (h : s.SameView t) (c : List HostInput) : (s.setCmd c).SameView (t.setCmd c) :=
  { h with cmd_eq := rfl }

theorem sameView_addTx (h : s.SameView t) (bs : List Byte) : (s.addTx bs).SameView (t.addTx bs) :=
  { h with tx_eq := congrArg (· ++ bs) h.tx_eq }

theorem sameView_addRpt (h : s.SameView t) (r : Report) : (s.addRpt r).SameView (t.addRpt r) :=
  { h with rpt_eq := congrArg (· ++ [r]) h.rpt_eq }

theorem sameView_empty (h : s.SameView t) : (s.setSize 0).SameView (t.setSize 0) :=
  { h with size_eq := rfl, valid_eq := rfl }

/-- `BUF` and `SIZE` replaced so that the same bytes are valid. -/
theorem sameView_setBuffer (h : s.SameView t) {m n : List Host.Cell} {k : Nat}
    (hvalid : ((s.setMem m).setSize k).valid = ((t.setMem n).setSize k).valid) :
    ((s.setMem m).setSize k).SameView ((t.setMem n).setSize k) :=
  { h with size_eq := rfl, valid_eq := hvalid }

/-! ## The outcomes of the commands -/

theorem sameOutcome_respond (h : s.SameView t) (c : RspCode) (v : Val) :
    SameOutcome (.next (respond c v s)) (.next (respond c v t)) :=
  ⟨_, _, rfl, rfl, sameView_respond h c v⟩

theorem sameOutcome_operandOutside (h : s.SameView t) {i : Instr} (hs : OperandOutside i s) (ht : OperandOutside i t) :
    SameOutcome (exec i s) (exec i t) := by
  rw [exec_of_operandOutside hs, exec_of_operandOutside ht]
  exact sameOutcome_respond h _ _

theorem sameOutcome_status (h : s.SameView t) : SameOutcome (exec .status s) (exec .status t) := by
  have hword : statusWord s = statusWord t := by
    rw [statusWord, statusWord, isEmpty, isEmpty, isFull, isFull, h.size_eq]
  rw [exec_status, exec_status, hword]
  exact sameOutcome_respond h _ _

theorem sameOutcome_crcRange (hs : s.Inv) (ht : t.Inv) (h : s.SameView t) (off len : Nat) :
    SameOutcome (exec (.crcRange off len) s) (exec (.crcRange off len) t) := by
  by_cases hin : off + len ≤ s.size
  · rw [exec_crcRange_inside hs hin, exec_crcRange_inside ht (hin.trans_eq h.size_eq), h.valid_eq]
    exact sameOutcome_respond h _ _
  · have hout : s.size < off + len := Nat.not_le.mp hin
    exact sameOutcome_operandOutside h hout (h.size_eq.symm.trans_lt hout)

theorem sameOutcome_bufRead (hs : s.Inv) (ht : t.Inv) (h : s.SameView t) (idx : Nat) :
    SameOutcome (exec (.bufRead idx) s) (exec (.bufRead idx) t) := by
  by_cases hin : idx < s.size
  · have hint : idx < t.size := hin.trans_eq h.size_eq
    have hbyte : Memory.read s.mem idx = Memory.read t.mem idx := by
      have hget := congrArg (·[idx]?) h.valid_eq
      simpa [State.valid_getElem?, hin, hint] using hget
    rw [exec_bufRead_inside hs hin, exec_bufRead_inside ht hint, hbyte]
    exact sameOutcome_respond h _ _
  · have hout : s.size ≤ idx := Nat.not_lt.mp hin
    exact sameOutcome_operandOutside h hout (h.size_eq.symm.trans_le hout)

theorem sameOutcome_bufPush (hs : s.Inv) (ht : t.Inv) (h : s.SameView t) (b : Byte) :
    SameOutcome (exec (.bufPush b) s) (exec (.bufPush b) t) := by
  obtain hroom | hfull := hs.size_le.lt_or_eq
  · have hvalid : ((s.setMem (Memory.write s.mem s.size b)).setSize (s.size + 1)).valid =
        ((t.setMem (Memory.write t.mem t.size b)).setSize (t.size + 1)).valid := by
      rw [State.valid_appended hs.mem_wf, State.valid_appended ht.mem_wf, h.valid_eq]
    rw [exec_bufPush_room hroom, exec_bufPush_room (h.size_eq.symm.trans_lt hroom)]
    rw [← h.size_eq] at hvalid ⊢
    exact sameOutcome_respond (sameView_setBuffer h hvalid) _ _
  · rw [exec_bufPush_full hfull, exec_bufPush_full (h.size_eq.symm.trans hfull)]
    exact sameOutcome_respond h _ _

theorem sameOutcome_bufCompact (hs : s.Inv) (ht : t.Inv) (h : s.SameView t) (start : Nat) :
    SameOutcome (exec (.bufCompact start) s) (exec (.bufCompact start) t) := by
  by_cases hin : start ≤ s.size
  · obtain ⟨m, hm, hreadm⟩ := exec_bufCompact_inside hs hin
    obtain ⟨n, hn, hreadn⟩ := exec_bufCompact_inside ht (hin.trans_eq h.size_eq)
    have hvalid : ((s.setMem m).setSize (s.size - start)).valid = ((t.setMem n).setSize (t.size - start)).valid := by
      rw [State.valid_compacted hreadm, State.valid_compacted hreadn, h.valid_eq]
    rw [hm, hn]
    rw [← h.size_eq] at hvalid ⊢
    exact sameOutcome_respond (sameView_setBuffer h hvalid) _ _
  · have hout : s.size < start := Nat.not_le.mp hin
    exact sameOutcome_operandOutside h hout (h.size_eq.symm.trans_lt hout)

/-- The scan sees the valid bytes only, and so finds the same first frame or none. -/
theorem sameOutcome_syncScan (hs : s.Inv) (ht : t.Inv) (h : s.SameView t) :
    SameOutcome (exec .syncScan s) (exec .syncScan t) := by
  obtain hno | ⟨start, stop, hfirst⟩ := noFrame_or_firstFrame s.valid
  · refine ⟨_, _, exec_syncScan_of_noFrame hs hno, exec_syncScan_of_noFrame ht (h.valid_eq ▸ hno), ?_⟩
    exact { h with rsp_eq := congrArg (· ++ _) h.rsp_eq }
  · obtain ⟨m, hm, hreadm⟩ := exec_syncScan_of_firstFrame hs hfirst
    obtain ⟨n, hn, hreadn⟩ := exec_syncScan_of_firstFrame ht (h.valid_eq ▸ hfirst)
    have hvalid : ((s.setMem m).setSize (s.size - stop)).valid = ((t.setMem n).setSize (t.size - stop)).valid := by
      rw [State.valid_compacted hreadm, State.valid_compacted hreadn, h.valid_eq]
    refine ⟨_, _, hm, hn, ?_⟩
    exact { h with
      size_eq := congrArg (· - stop) h.size_eq
      valid_eq := hvalid
      rpt_eq := congrArg₂ (fun reports bytes => reports ++ frameReports bytes start stop) h.rpt_eq h.valid_eq
      rsp_eq := congrArg (· ++ _) h.rsp_eq }

theorem sameOutcome_discardAll (hs : s.Inv) (ht : t.Inv) (h : s.SameView t) (v : Val) :
    SameOutcome (onOk (discardAll s) fun u => .next (respond .discarded v u))
      (onOk (discardAll t) fun u => .next (respond .discarded v u)) := by
  rw [discardAll_valid hs.size_le, discardAll_valid ht.size_le, onOk_ok, onOk_ok, h.valid_eq]
  exact sameOutcome_respond (sameView_empty (sameView_addRpt h _)) _ _

theorem sameOutcome_syncEvict (hs : s.Inv) (ht : t.Inv) (h : s.SameView t) :
    SameOutcome (exec .syncEvict s) (exec .syncEvict t) := by
  rw [exec, exec, execSyncEvict, execSyncEvict, isFull, isFull, ← h.size_eq]
  split
  · exact sameOutcome_discardAll hs ht h _
  · exact sameOutcome_respond h _ _

theorem sameOutcome_syncFlush (hs : s.Inv) (ht : t.Inv) (h : s.SameView t) :
    SameOutcome (exec .syncFlush s) (exec .syncFlush t) := by
  rw [exec, exec, execSyncFlush, execSyncFlush, isEmpty, isEmpty, ← h.size_eq]
  split
  · exact sameOutcome_respond h _ _
  · exact sameOutcome_discardAll hs ht h _

/-- Every command answers two states with one view alike. -/
theorem exec_sameOutcome (hs : s.Inv) (ht : t.Inv) (h : s.SameView t) (i : Instr) :
    SameOutcome (exec i s) (exec i t) := by
  cases i with
  | nop => exact sameOutcome_respond h _ _
  | status => exact sameOutcome_status h
  | srst => exact sameOutcome_respond (sameView_setUacc (sameView_empty h) _) _ _
  | crcInit => exact sameOutcome_respond (sameView_setUacc h _) _ _
  | crcByte b =>
    rw [exec_crcByte, exec_crcByte, h.uacc_eq]
    exact sameOutcome_respond (sameView_setUacc h _) _ _
  | crcRead =>
    rw [exec_crcRead, exec_crcRead, h.uacc_eq]
    exact sameOutcome_respond h _ _
  | crcEmit =>
    rw [exec_crcEmit, exec_crcEmit, h.uacc_eq]
    exact sameOutcome_respond (sameView_addTx h _) _ _
  | crcRange off len => exact sameOutcome_crcRange hs ht h off len
  | bufPush b => exact sameOutcome_bufPush hs ht h b
  | bufCompact start => exact sameOutcome_bufCompact hs ht h start
  | bufReset => exact sameOutcome_respond (sameView_empty h) _ _
  | bufRead idx => exact sameOutcome_bufRead hs ht h idx
  | syncScan => exact sameOutcome_syncScan hs ht h
  | syncEvict => exact sameOutcome_syncEvict hs ht h
  | syncFlush => exact sameOutcome_syncFlush hs ht h

/-- A step of two states with one view: the input it takes is the same. -/
theorem step_sameOutcome (hs : s.Inv) (ht : t.Inv) (h : s.SameView t) : SameOutcome (step s) (step t) := by
  rcases hcmd : s.cmd with _ | ⟨_ | _, rest⟩
  case nil =>
    rw [step_of_nothing_presented hcmd, step_of_nothing_presented (h.cmd_eq ▸ hcmd)]
    exact ⟨s, t, rfl, rfl, h⟩
  case cons.command w =>
    have hview := sameView_setCmd h rest
    have hcmd' : t.cmd = .command w :: rest := h.cmd_eq ▸ hcmd
    cases hd : decode w with
    | ok i =>
      rw [step_of_decode_ok hcmd hd, step_of_decode_ok hcmd' hd]
      exact exec_sameOutcome (hs.setCmd rest) (ht.setCmd rest) hview i
    | error e =>
      rw [step_of_decode_error hcmd hd, step_of_decode_error hcmd' hd]
      exact sameOutcome_respond hview _ _
  case cons.reset =>
    rw [step_of_reset hcmd, step_of_reset (h.cmd_eq ▸ hcmd)]
    exact ⟨_, _, rfl, rfl, sameView_setUacc (sameView_empty (sameView_setCmd h rest)) _⟩

end View

/-- Settles O42: the first state's next state is the one `step_sameOutcome` gives. -/
theorem staleBytesAreInvisible : Obligations.StaleBytesAreInvisible := by
  intro s t s' hs ht h hstep
  obtain ⟨u, t', hu, ht', hview⟩ := step_sameOutcome hs ht h
  cases hstep.symm.trans hu
  exact ⟨t', ht', hview⟩

end Sys2Proof.Proofs
end

section
/-! PROOFS of the family 'other', part 5: the algebra of the checksum (40_crc16_engine.md R83 to R85) and what it means
for frames (42_frame_synchronizer.md R129). -/

namespace Sys2Proof.Proofs

open Sys2Proof.Machine Sys2Proof.Claims Sys2Proof.Laws

/-! ## One iteration is linear over XOR, and only 0 is sent to 0 -/

theorem crcBit_of_even {t : Crc} (h : t.getLsbD 0 = false) : crcBit t = t >>> 1 :=
  if_neg (Bool.eq_false_iff.mp h)

theorem crcBit_of_odd {t : Crc} (h : t.getLsbD 0 = true) : crcBit t = t >>> 1 ^^^ Config.crcPoly :=
  if_pos h

/-- The polynomial is added as often as an operand is odd; twice cancels. -/
theorem crcBit_xor (x y : Crc) : crcBit (x ^^^ y) = crcBit x ^^^ crcBit y := by
  have hlow : (x ^^^ y).getLsbD 0 = (x.getLsbD 0 ^^ y.getLsbD 0) := BitVec.getLsbD_xor
  have hshift : (x ^^^ y) >>> 1 = x >>> 1 ^^^ y >>> 1 := BitVec.ushiftRight_xor_distrib x y 1
  cases hx : x.getLsbD 0 <;> cases hy : y.getLsbD 0 <;> rw [hx, hy] at hlow
  · rw [crcBit_of_even hlow, crcBit_of_even hx, crcBit_of_even hy, hshift]
  · rw [crcBit_of_odd hlow, crcBit_of_even hx, crcBit_of_odd hy, hshift, BitVec.xor_assoc]
  · rw [crcBit_of_odd hlow, crcBit_of_odd hx, crcBit_of_even hy, hshift]
    ac_rfl
  · rw [crcBit_of_even hlow, crcBit_of_odd hx, crcBit_of_odd hy, hshift]
    calc x >>> 1 ^^^ y >>> 1
        = (x >>> 1 ^^^ y >>> 1) ^^^ (Config.crcPoly ^^^ Config.crcPoly) := by rw [BitVec.xor_self, BitVec.xor_zero]
      _ = (x >>> 1 ^^^ Config.crcPoly) ^^^ (y >>> 1 ^^^ Config.crcPoly) := by ac_rfl

/-- An odd operand leaves the top bit of the polynomial; an even one is only shifted. -/
theorem eq_zero_of_crcBit_eq_zero {t : Crc} (h : crcBit t = 0#16) : t = 0#16 := by
  cases hlow : t.getLsbD 0 with
  | true =>
    rw [crcBit_of_odd hlow] at h
    have htop := congrArg (·.getLsbD 15) h
    simp [Config.crcPoly] at htop
  | false =>
    rw [crcBit_of_even hlow] at h
    apply BitVec.eq_of_getLsbD_eq
    intro i _
    cases i with
    | zero => rw [hlow]; rfl
    | succ i =>
      have hbit := congrArg (·.getLsbD i) h
      simpa [Nat.add_comm] using hbit

theorem crcBits_xor (n : Nat) (x y : Crc) : crcBits n (x ^^^ y) = crcBits n x ^^^ crcBits n y := by
  induction n generalizing x y with
  | zero => rfl
  | succ n ih => rw [crcBits_succ, crcBit_xor, ih, crcBits_succ, crcBits_succ]

theorem eq_zero_of_crcBits_eq_zero {n : Nat} {t : Crc} (h : crcBits n t = 0#16) : t = 0#16 := by
  induction n generalizing t with
  | zero => exact h
  | succ n ih => exact eq_zero_of_crcBit_eq_zero (ih h)

/-- Iterations that meet no odd accumulator only shift. -/
theorem crcBits_eq_ushiftRight {n : Nat} {t : Crc} (h : ∀ i < n, t.getLsbD i = false) : crcBits n t = t >>> n := by
  induction n generalizing t with
  | zero => exact (BitVec.ushiftRight_zero t).symm
  | succ n ih =>
    have hshifted : ∀ i < n, (t >>> 1).getLsbD i = false := fun i hi => by
      rw [BitVec.getLsbD_ushiftRight]
      exact h _ (by omega)
    rw [crcBits_succ, crcBit_of_even (h 0 n.succ_pos), ih hshifted, ← BitVec.shiftRight_add, Nat.add_comm]

/-! ## `crc_step` (R84, R85) -/

theorem zeroExtend_xor (b d : Byte) : (b ^^^ d).zeroExtend 16 = b.zeroExtend 16 ^^^ d.zeroExtend 16 :=
  BitVec.setWidth_xor

theorem crcStep_xor (x y : Crc) (b d : Byte) : crcStep (x ^^^ y) (b ^^^ d) = crcStep x b ^^^ crcStep y d := by
  have hoperand : (x ^^^ y) ^^^ (b ^^^ d).zeroExtend 16 = (x ^^^ b.zeroExtend 16) ^^^ (y ^^^ d.zeroExtend 16) := by
    rw [zeroExtend_xor]
    ac_rfl
  rw [crcStep, hoperand, crcBits_xor, crcStep, crcStep]

/-- The checksum is 0 after a byte exactly when the accumulator was that byte. -/
theorem crcStep_eq_zero_iff (acc : Crc) (b : Byte) : crcStep acc b = 0#16 ↔ acc = b.zeroExtend 16 := by
  constructor
  · exact fun h => BitVec.xor_eq_zero_iff.mp (eq_zero_of_crcBits_eq_zero h)
  · rintro rfl
    rw [crcStep, BitVec.xor_self]
    decide

theorem crcStep_injective (b : Byte) : Function.Injective fun acc : Crc => crcStep acc b := by
  intro x y hxy
  have hzero : crcStep (x ^^^ y) (b ^^^ b) = 0#16 := by rw [crcStep_xor, BitVec.xor_eq_zero_iff]; exact hxy
  rw [BitVec.xor_self, crcStep_eq_zero_iff] at hzero
  exact BitVec.xor_eq_zero_iff.mp hzero

/-- Settles O18: `crcStep` is linear because each iteration is, and injective because only 0 is sent to 0. -/
theorem crcStepIsLinearAndBijective : Obligations.CrcStepIsLinearAndBijective :=
  ⟨crcStep_xor, fun b => Finite.injective_iff_bijective.mp (crcStep_injective b)⟩

/-- An accumulator is its high byte in place and its low byte. -/
theorem crc_eq_high_xor_low (acc : Crc) : acc = acc >>> 8 <<< 8 ^^^ (acc.extractLsb' 0 8).zeroExtend 16 := by
  apply BitVec.eq_of_getLsbD_eq
  intro i hi
  by_cases hlow : i < 8
  · simp [hi, hlow]
  · simp [hi, hlow, show 8 + (i - 8) = i by omega]

/-- The high byte meets no odd accumulator and is shifted down. -/
theorem crcBits_high (acc : Crc) : crcBits 8 (acc >>> 8 <<< 8) = acc >>> 8 := by
  have hlow : ∀ i < 8, (acc >>> 8 <<< 8).getLsbD i = false := fun i hi => by simp [hi]
  rw [crcBits_eq_ushiftRight hlow]
  apply BitVec.eq_of_getLsbD_eq
  intro i _
  by_cases hhigh : 8 + i < 16
  · simp [hhigh]
  · simp [hhigh, BitVec.getLsbD_of_ge acc (8 + i) (Nat.not_lt.mp hhigh)]

theorem crcStep_table (acc : Crc) (b : Byte) :
    crcStep acc b = (acc >>> 8) ^^^ crcStep 0x0000#16 (acc.extractLsb' 0 8 ^^^ b) := by
  have hsplit : acc ^^^ b.zeroExtend 16 =
      acc >>> 8 <<< 8 ^^^ (0x0000#16 ^^^ (acc.extractLsb' 0 8 ^^^ b).zeroExtend 16) := by
    rw [BitVec.zero_xor, zeroExtend_xor, ← BitVec.xor_assoc, ← crc_eq_high_xor_low]
  rw [crcStep, hsplit, crcBits_xor, crcBits_high, crcStep]

/-- Settles O19: the accumulator is cut into its bytes, of which the high one is only shifted. -/
theorem crcStepHasATableForm : Obligations.CrcStepHasATableForm := crcStep_table

/-! ## The trailer (20_memory.md R33, R83) -/

theorem crc16_trailer (f : List Byte) (lo hi : Byte) : crc16 (f ++ [lo, hi]) = crcStep (crcStep (crc16 f) lo) hi :=
  foldl_crcStep_append f [lo, hi] Config.crcInit

/-- A CRC shifted down is its high byte. -/
theorem crc_ushiftRight_eq_high (c : Crc) : c >>> 8 = (c.extractLsb' 8 8).zeroExtend 16 := by
  apply BitVec.eq_of_getLsbD_eq
  intro i hi
  by_cases hlow : i < 8
  · simp [hi, hlow]
  · simp [hlow, BitVec.getLsbD_of_ge c (8 + i) (by omega)]

/-- The table has a high byte 0 at index 0 only. -/
theorem table_high_eq_zero_iff : ∀ x : Byte, (crcStep 0x0000#16 x).extractLsb' 8 8 = 0#8 ↔ x = 0#8 := by
  decide +kernel

theorem crcStep_zero_zero : crcStep 0x0000#16 0x00#8 = 0x0000#16 := by decide

/-- Folding the low byte of the accumulator leaves its high byte. -/
theorem crcStep_low (c : Crc) : crcStep c (c.extractLsb' 0 8) = (c.extractLsb' 8 8).zeroExtend 16 := by
  rw [crcStep_table, BitVec.xor_self, crcStep_zero_zero, BitVec.xor_zero, crc_ushiftRight_eq_high]

/-- What is left after a byte fits a byte only when that byte was the low byte of the accumulator. -/
theorem crcStep_eq_byte_iff (c : Crc) (lo hi : Byte) :
    crcStep c lo = hi.zeroExtend 16 ↔ lo = c.extractLsb' 0 8 ∧ hi = c.extractLsb' 8 8 := by
  constructor
  · intro h
    have hlo : lo = c.extractLsb' 0 8 := by
      have hhigh := congrArg (·.extractLsb' 8 8) ((crcStep_table c lo).symm.trans h)
      have hc : (c >>> 8).extractLsb' 8 8 = 0#8 := by
        rw [crc_ushiftRight_eq_high]
        apply BitVec.eq_of_getLsbD_eq
        simp
      have hb : (hi.zeroExtend 16).extractLsb' 8 8 = 0#8 := by
        apply BitVec.eq_of_getLsbD_eq
        simp
      rw [BitVec.extractLsb'_xor, hc, hb, BitVec.zero_xor, table_high_eq_zero_iff, BitVec.xor_eq_zero_iff] at hhigh
      exact hhigh.symm
    subst hlo
    rw [crcStep_low] at h
    have hback := congrArg (BitVec.setWidth 8) h
    simpa using hback.symm
  · rintro ⟨rfl, rfl⟩
    exact crcStep_low c

theorem crc16_trailer_eq_zero_iff (f : List Byte) (lo hi : Byte) :
    crc16 (f ++ [lo, hi]) = 0x0000#16 ↔ lo = (crc16 f).extractLsb' 0 8 ∧ hi = (crc16 f).extractLsb' 8 8 := by
  rw [crc16_trailer, crcStep_eq_zero_iff, crcStep_eq_byte_iff]

/-- Settles O17: the second byte must be what the first has left. -/
theorem onlyTheTrailerCompletesARange : Obligations.OnlyTheTrailerCompletesARange := crc16_trailer_eq_zero_iff

/-- Settles O16: the low byte leaves the high byte, which leaves 0. -/
theorem crc16OfTrailedRangeIsZero : Obligations.Crc16OfTrailedRangeIsZero :=
  ⟨fun f => ⟨(crc16_trailer_eq_zero_iff f _ _).mpr ⟨rfl, rfl⟩, crcStep_low _, (crcStep_eq_zero_iff _ _).mpr rfl⟩,
    by decide +kernel⟩

/-! ## The shortest frame (R129) -/

theorem crc16_singleton_ne_zero (x : Byte) : crc16 [x] ≠ 0x0000#16 := by
  intro h
  have hinit : (0xFFFF#16 : Crc) = x.zeroExtend 16 := (crcStep_eq_zero_iff _ _).mp h
  have htop := congrArg (·.getLsbD 15) hinit
  simp at htop

theorem crc16_pair_eq_zero_iff (x y : Byte) : crc16 [x, y] = 0x0000#16 ↔ x = 0xFF#8 ∧ y = 0xFF#8 :=
  crc16_trailer_eq_zero_iff [] x y

/-- No low byte of a one-byte checksum is plausible as a function code. -/
theorem crc16_singleton_low_not_plausible :
    ∀ x : Byte, (crc16 [x]).extractLsb' 0 8 &&& 0x7F#8 ∉ [3#8, 6#8, 22#8] := by
  decide +kernel

/-- Fewer than four bytes of which the second is plausible have a checksum that is not zero. -/
theorem crc16_ne_zero_of_short {range : List Byte} {fc : Byte} (hshort : range.length < 4) (hne : range ≠ [])
    (hsecond : ∀ b, range[1]? = some b → b = fc) (hfc : fc &&& 0x7F#8 ∈ [3#8, 6#8, 22#8]) :
    crc16 range ≠ 0x0000#16 := by
  match range with
  | [] => exact absurd rfl hne
  | [x] => exact crc16_singleton_ne_zero x
  | [x, y] =>
    intro hzero
    obtain ⟨-, rfl⟩ := (crc16_pair_eq_zero_iff x y).mp hzero
    obtain rfl := hsecond _ rfl
    exact absurd hfc (by decide)
  | [x, y, z] =>
    intro hzero
    obtain ⟨rfl, -⟩ := (crc16_trailer_eq_zero_iff [x] y z).mp hzero
    obtain rfl := hsecond _ rfl
    exact crc16_singleton_low_not_plausible x hfc
  | _ :: _ :: _ :: _ :: _ => simp at hshort; omega

/-- A zero range of a candidate has at least four bytes. -/
theorem zeroRange_four_le {bytes : List Byte} {start stop : Nat} (hcand : IsCandidate bytes start)
    (hzero : IsZeroRange bytes start stop) : start + 4 ≤ stop := by
  obtain ⟨fc, hfc, hallowed⟩ := hcand
  obtain ⟨hlt, hle, hcrc⟩ := hzero
  by_contra hshort
  refine crc16_ne_zero_of_short (fc := fc) ?_ ?_ (fun b hb => ?_) hallowed hcrc
  · simp only [List.length_take, List.length_drop]
    omega
  · apply List.ne_nil_of_length_pos
    simp only [List.length_take, List.length_drop]
    omega
  · rw [List.getElem?_take] at hb
    split at hb
    · rw [List.getElem?_drop, hfc] at hb
      exact (Option.some.inj hb).symm
    · cases hb

theorem allowed_iff_plausible (y : Byte) :
    y ∈ [0x03#8, 0x06#8, 0x16#8, 0x83#8, 0x86#8, 0x96#8] ↔ y &&& 0x7F#8 ∈ [3#8, 6#8, 22#8] :=
  (plausibleFunctionCodes y).symm.trans (plausible_iff y)

/-- An address and an allowed code followed by their checksum are a frame from start to end. -/
theorem firstFrame_of_trailed_pair {x y : Byte} (hy : y &&& 0x7F#8 ∈ [3#8, 6#8, 22#8]) :
    IsFirstFrame [x, y, (crc16 [x, y]).extractLsb' 0 8, (crc16 [x, y]).extractLsb' 8 8] 0 4 := by
  have hcand : IsCandidate [x, y, (crc16 [x, y]).extractLsb' 0 8, (crc16 [x, y]).extractLsb' 8 8] 0 := ⟨y, rfl, hy⟩
  refine ⟨hcand, ⟨by decide, le_rfl, ?_⟩, fun e he hzero => ?_, fun c hc => absurd hc (Nat.not_lt_zero c)⟩
  · exact (crc16_trailer_eq_zero_iff [x, y] _ _).mpr ⟨rfl, rfl⟩
  · have hfour := zeroRange_four_le hcand hzero
    omega

/-- Settles O35: shorter zero ranges have no plausible second byte, and a trailed pair is a zero range of four bytes. -/
theorem confirmedFramesHaveFourBytesOrMore : Obligations.ConfirmedFramesHaveFourBytesOrMore :=
  ⟨fun _ _ _ h => zeroRange_four_le h.candidate h.zero,
    fun _ y hy => firstFrame_of_trailed_pair ((allowed_iff_plausible y).mp hy), crc16_pair_eq_zero_iff⟩

end Sys2Proof.Proofs
end

section
/-! PROOFS of the family 'other', part 6: single steps, reset, and runs over the command words of the input
(20_memory.md R39, 10_state.md R20, 70_reset_and_hazards.md R220, R221). -/

namespace Sys2Proof.Proofs

open Sys2Proof.Machine Sys2Proof.Claims Sys2Proof.Laws

/-! ## Steps and reset -/

/-- Settles O5: a word that decodes is run in the state without it. -/
theorem stepRunsTheDecodedCommand : Obligations.StepRunsTheDecodedCommand := fun _ _ _ _ hcmd hd =>
  step_of_decode_ok hcmd hd

/-- Settles O6: with nothing presented the step waits, and the reset event is taken from the input. -/
theorem stepTakesTheResetEventOrWaits : Obligations.StepTakesTheResetEventOrWaits := fun _ =>
  ⟨step_of_nothing_presented, fun _ => step_of_reset⟩

theorem exec_status_reset : exec .status State.reset = .next { State.reset with rsp := [0x00002000#32] } := by
  have hword : rspWord .ok (statusWord State.reset) = 0x00002000#32 := by decide
  rw [exec_status, respond_eq, hword]
  rfl

/-- Settles O7: the fields of the reset state, and STATUS run there. -/
theorem resetValues : Obligations.ResetValues :=
  ⟨rfl, rfl, rfl, rfl, rfl, exec_status_reset⟩

/-- Settles O9: no index of `BUF` is listed after reset. -/
theorem resetMeetsTheInvariant : Obligations.ResetMeetsTheInvariant :=
  ⟨by decide, rfl, rfl⟩

/-- An empty buffer holds no candidate. -/
theorem noFrame_reset : NoFrame State.reset.valid := fun _ ⟨_, hfc, _⟩ => nomatch hfc

/-- Settles O8: each command on the empty buffer, by what its rule says there. -/
theorem firstCommandAfterReset : Obligations.FirstCommandAfterReset := by
  intro p hp
  simp only [List.mem_cons, List.not_mem_nil, or_false] at hp
  obtain rfl | rfl | rfl | rfl | rfl | rfl | rfl | rfl := hp
  · exact exec_status_reset
  · exact exec_syncScan_of_noFrame resetMeetsTheInvariant noFrame_reset
  · exact exec_syncEvict_not_full (by decide)
  · exact exec_syncFlush_empty rfl
  · rw [exec_crcRead, respond_eq, rspWord_ok_valCrc]
    rfl
  · exact exec_of_operandOutside_eq (i := .bufRead 0) (Nat.le_refl 0)
  · rfl
  · rw [exec_crcRange_inside resetMeetsTheInvariant (Nat.le_refl 0), respond_eq, rspWord_ok_valCrc]
    rfl

/-- Settles O22: SRST is the reset event's state with the response `OK`, 0. -/
theorem softResetReachesTheResetState : Obligations.SoftResetReachesTheResetState := by
  have hsrst (s : State) : exec .srst s = .next { applyReset s with rsp := s.rsp ++ [0x00000000#32] } := by
    rw [← rspWord_ok_zero]
    rfl
  exact ⟨encodedAs_row .srst, fun s => ⟨hsrst s, hsrst s⟩⟩

/-! ## Runs over command words (R39) -/

section Sequencing

variable {α β γ : Type}

theorem chain_assoc (r : Except Fault α) (k : α → Except Fault β) (l : β → Except Fault γ) :
    chain (chain r k) l = chain r fun a => chain (k a) l := by
  cases r <;> rfl

theorem andThen_assoc (o : Out) (k : State → Out) (l : State → Out) :
    andThen (andThen o k) l = andThen o fun s => andThen (k s) l := by
  cases o <;> rfl

end Sequencing

/-- An outcome with another input in its next state. -/
def withInput (c : List HostInput) (o : Out) : Out := andThen o fun t => .next (t.setCmd c)

/-! A command neither sees nor changes the input behind it: each operation, run in the state with another input, answers
what it answered, with that input in the next state. -/

section BehindTheInput

variable (c : List HostInput) (s : State)

theorem memRead_setCmd (i : Nat) : memRead (s.setCmd c) i = memRead s i := rfl

theorem readRange_setCmd (off n : Nat) : readRange (s.setCmd c) off n = readRange s off n :=
  readRange_congr (s := s.setCmd c) (t := s) rfl rfl off n

theorem extend_setCmd (n i : Nat) (sacc : Crc) : extend (s.setCmd c) n i sacc = extend s n i sacc := by
  induction n generalizing i sacc with
  | zero => rfl
  | succ n ih => simp only [extend, memRead_setCmd, ih]

theorem candidates_setCmd (n start : Nat) : candidates (s.setCmd c) n start = candidates s n start := by
  induction n generalizing start with
  | zero => rfl
  | succ n ih => simp only [candidates, memRead_setCmd, extend_setCmd, ih, State.setCmd_size]

theorem memWrite_setCmd (i : Nat) (v : Byte) :
    memWrite (s.setCmd c) i v = chain (memWrite s i v) fun t => .ok (t.setCmd c) := by
  unfold memWrite
  split <;> rfl

theorem moveDown_setCmd (start n k : Nat) :
    moveDown start n k (s.setCmd c) = chain (moveDown start n k s) fun t => .ok (t.setCmd c) := by
  induction n generalizing k s with
  | zero => rfl
  | succ n ih => simp only [moveDown, memRead_setCmd, memWrite_setCmd, chain_assoc, chain_ok, ih]

theorem compactTo_setCmd (start : Nat) :
    compactTo start (s.setCmd c) = chain (compactTo start s) fun t => .ok (t.setCmd c) := by
  simp only [compactTo, moveDown_setCmd, chain_assoc, chain_ok, State.setCmd_size]
  rfl

theorem reportRange_setCmd (role : Role) (off n : Nat) :
    reportRange role off n (s.setCmd c) = chain (reportRange role off n s) fun t => .ok (t.setCmd c) := by
  simp only [reportRange, readRange_setCmd, chain_assoc]
  rfl

theorem discardAll_setCmd : discardAll (s.setCmd c) = chain (discardAll s) fun t => .ok (t.setCmd c) := by
  simp only [discardAll, reportRange_setCmd, chain_assoc, chain_ok, State.setCmd_size]
  rfl

theorem confirmFrame_setCmd (start stop : Nat) :
    confirmFrame start stop (s.setCmd c) = chain (confirmFrame start stop s) fun t => .ok (t.setCmd c) := by
  unfold confirmFrame
  split <;> simp only [chain_assoc, chain_ok, reportRange_setCmd, compactTo_setCmd]

/-! The three ways in which a command is put together from its parts. -/

variable {c}

theorem ite_withInput {p : Prop} [Decidable p] {a a' b b' : Out} (ha : a' = withInput c a) (hb : b' = withInput c b) :
    (if p then a' else b') = withInput c (if p then a else b) := by
  rw [ha, hb]
  split <;> rfl

/-- A read, then what follows it. -/
theorem onOk_withInput {α : Type} (r : Except Fault α) {k k' : α → Out} (hk : ∀ a, k' a = withInput c (k a)) :
    onOk r k' = withInput c (onOk r k) := by
  cases r with
  | ok a => exact hk a
  | error f => rfl

/-- An operation that leaves the input alone, then what follows it. -/
theorem onOk_chain_withInput (r : Except Fault State) {k k' : State → Out}
    (hk : ∀ t, k' (t.setCmd c) = withInput c (k t)) :
    onOk (chain r fun t => .ok (t.setCmd c)) k' = withInput c (onOk r k) := by
  cases r with
  | ok t => exact hk t
  | error f => rfl

/-- The recovery of SYNC.EVICT and SYNC.FLUSH with its response. -/
theorem onOk_discardAll_withInput (v : Val) :
    (onOk (discardAll (s.setCmd c)) fun t => .next (respond .discarded v t)) =
      withInput c (onOk (discardAll s) fun t => .next (respond .discarded v t)) := by
  rw [discardAll_setCmd]
  exact onOk_chain_withInput _ fun _ => rfl

variable (c)

theorem exec_setCmd (i : Instr) : exec i (s.setCmd c) = withInput c (exec i s) := by
  cases i with
  | crcRange off len =>
    simp only [exec, execCrcRange, readRange_setCmd]
    exact ite_withInput (onOk_withInput _ fun _ => rfl) rfl
  | bufRead idx => exact ite_withInput (onOk_withInput (memRead s idx) fun _ => rfl) rfl
  | bufPush b =>
    simp only [exec, execBufPush, memWrite_setCmd]
    exact ite_withInput (onOk_chain_withInput _ fun _ => rfl) rfl
  | bufCompact start =>
    simp only [exec, execBufCompact, compactTo_setCmd]
    exact ite_withInput (onOk_chain_withInput _ fun _ => rfl) rfl
  | syncScan =>
    simp only [exec, execSyncScan, scan, candidates_setCmd, confirmFrame_setCmd]
    refine onOk_withInput (scan s) fun found => ?_
    cases found with
    | none => rfl
    | some range => exact onOk_chain_withInput _ fun _ => rfl
  | syncEvict => exact ite_withInput (onOk_discardAll_withInput s _) rfl
  | syncFlush => exact ite_withInput rfl (onOk_discardAll_withInput s _)
  | _ => rfl

end BehindTheInput

section Runs

variable {M : Host.Core} {k : Nat} {s t : M.State}

theorem run_succ_of_next (h : M.step s = .next t) : M.run (k + 1) s = M.run k t := by rw [Host.Core.run, h]

theorem run_succ_of_fault {f : M.Fault} (h : M.step s = .fault f) : M.run (k + 1) s = .fault f := by
  rw [Host.Core.run, h]

theorem run_succ_of_refused {r : M.Refusal} (h : M.step s = .refused r) : M.run (k + 1) s = .refused r := by
  rw [Host.Core.run, h]

end Runs

/-- `k` steps of MBSC. -/
def steps (k : Nat) (s : State) : Out := Host.Core.run Sys2Proof.core k s

theorem steps_succ (k : Nat) (s : State) : steps (k + 1) s = andThen (step s) (steps k) := by
  cases h : step s with
  | next t => exact run_succ_of_next h
  | fault f => exact run_succ_of_fault h
  | refused r => exact run_succ_of_refused h

/-- What the host presents for a list of commands. -/
def presented (is : List Instr) : List HostInput := is.map fun i => .command (encode i)

theorem step_presented {i : Instr} (hi : i.wf = true) (s : State) (rest : List HostInput) :
    step (s.setCmd (presented [i] ++ rest)) = withInput rest (exec i s) := by
  have hcmd : (s.setCmd (presented [i] ++ rest)).cmd = .command (encode i) :: rest := rfl
  rw [step_of_decode_ok hcmd (decodeOfEncodeIsTheCommand i hi), exec_setCmd, exec_setCmd]
  cases exec i s <;> rfl

/-- The commands presented are run one after another, and what stands behind them is left. -/
theorem steps_presented {is : List Instr} (hwf : ∀ i ∈ is, i.wf = true) (s : State) (rest : List HostInput) :
    steps is.length (s.setCmd (presented is ++ rest)) = runCommands is (s.setCmd rest) := by
  induction is generalizing s with
  | nil => rfl
  | cons i is ih =>
    obtain ⟨hi, his⟩ := List.forall_mem_cons.mp hwf
    calc steps (is.length + 1) (s.setCmd (presented [i] ++ (presented is ++ rest)))
        = andThen (exec i s) fun t => steps is.length (t.setCmd (presented is ++ rest)) := by
          rw [steps_succ, step_presented hi, withInput, andThen_assoc]
          rfl
      _ = andThen (exec i s) fun t => runCommands is (t.setCmd rest) := by simp only [ih his]
      _ = runCommands (i :: is) (s.setCmd rest) := by
          rw [runCommands, exec_setCmd, withInput, andThen_assoc]
          rfl

/-- Settles O43: each step takes the next word and runs its command, which does not see the words behind it. -/
theorem commandsRunInTheOrderOfTheInput : Obligations.CommandsRunInTheOrderOfTheInput := fun _ s rest hwf =>
  steps_presented hwf s rest

end Sys2Proof.Proofs
end

section
/-! PROOFS of the family 'other', part 7: the host's macros APPEND, INGEST, CRC16 and FRAME.TX
(44_host_macros_and_collaborators.md R160, R162, R165, R166). -/

namespace Sys2Proof.Proofs

open Sys2Proof.Machine Sys2Proof.Claims Sys2Proof.Laws

theorem runCommands_append (xs ys : List Instr) (s : State) :
    runCommands (xs ++ ys) s = andThen (runCommands xs s) (runCommands ys) := by
  induction xs generalizing s with
  | nil => rfl
  | cons x xs ih =>
    rw [List.cons_append, runCommands, runCommands, andThen_assoc]
    exact congrArg _ (funext ih)

theorem runCommands_singleton (i : Instr) (s : State) : runCommands [i] s = exec i s := by
  rw [runCommands]
  cases exec i s <;> rfl

/-! ## CRC16 and FRAME.TX (R165, R166) -/

section Checksum

variable (bytes : List Byte) (s : State)

theorem runCommands_crcByte : runCommands (bytes.map .crcByte) s = .next { s with
    uacc := bytes.foldl crcStep s.uacc
    rsp := s.rsp ++ List.replicate bytes.length 0x00000000#32 } := by
  obtain ⟨-, hbyte⟩ := crcByteFoldsOneByte
  induction bytes generalizing s with
  | nil => simp [runCommands]
  | cons b bytes ih =>
    rw [List.map_cons, runCommands, hbyte, andThen_next, ih]
    simp [List.replicate_succ]

/-- The two macros up to their last command: a checksum begun and the bytes folded. -/
theorem runCommands_checksum (last : Instr) :
    runCommands (.crcInit :: (bytes.map .crcByte ++ [last])) s = exec last { s with
      uacc := crc16 bytes
      rsp := s.rsp ++ List.replicate (bytes.length + 1) 0x00000000#32 } := by
  obtain ⟨-, hinit⟩ := crcInitStartsAChecksum
  rw [runCommands, hinit, andThen_next, runCommands_append, runCommands_crcByte, andThen_next, runCommands_singleton,
    List.append_assoc, List.replicate_succ]
  rfl

end Checksum

/-- Settles O47: CRC.READ after the bytes are folded. -/
theorem crc16MacroReturnsTheChecksum : Obligations.Crc16MacroReturnsTheChecksum := fun s bytes =>
  (runCommands_checksum bytes s .crcRead).trans (crcReadReturnsTheAccumulator.2 _)

/-- Settles O48: CRC.EMIT after the bytes are folded; the two bytes are the trailer. -/
theorem frameTxCompletesTheFrame : Obligations.FrameTxCompletesTheFrame := by
  intro s bytes
  refine ⟨(crc16 bytes).extractLsb' 0 8, (crc16 bytes).extractLsb' 8 8, ?_, ?_, ?_⟩
  · obtain ⟨-, hemit⟩ := crcEmitWritesLowThenHigh
    rw [frameTxCommands, runCommands_checksum, hemit, List.append_assoc, ← List.replicate_succ']
  · have happend := BitVec.extractLsb'_append_extractLsb'_eq_extractLsb' (x := crc16 bytes)
      (len₂ := 8) (Nat.zero_add 8).symm
    exact (happend.trans BitVec.extractLsb'_eq_self).symm
  · exact (crc16_trailer_eq_zero_iff bytes _ _).mpr ⟨rfl, rfl⟩

/-! ## APPEND (R160) -/

/-- The number in `val[11:0]` of a response. -/
def countOf (w : RspWord) : Nat := (w.extractLsb' 0 12).toNat

/-- The response of a push of `b` (R100). -/
def pushAnswer (b : Byte) (s : State) : RspWord := rspWord .ok (valCount (pushed b s).length)

/-- The bytes of a chunk that fit. -/
def accepted (bytes : List Byte) (s : State) : List Byte := bytes.take (Config.capacity - s.size)

section Push

variable {s u : State} (b : Byte)

theorem pushed_of_room (h : s.size < Config.capacity) : pushed b s = [b] := if_pos h

theorem pushed_of_full (h : s.size = Config.capacity) : pushed b s = [] := if_neg h.not_lt

theorem length_pushed_lt (s : State) : (pushed b s).length < 2 := by
  rw [pushed]
  split
  · exact Nat.lt_add_one 1
  · exact Nat.zero_lt_two

theorem countOf_ok_valCount : ∀ n < 2, countOf (rspWord .ok (valCount n)) = n := by decide

theorem countOf_pushAnswer (s : State) : countOf (pushAnswer b s) = (pushed b s).length :=
  countOf_ok_valCount _ (length_pushed_lt b s)

theorem exec_bufPush_next (hs : s.Inv) :
    ∃ u, exec (.bufPush b) s = .next u ∧ u.rsp = s.rsp ++ [pushAnswer b s] := by
  obtain hroom | hfull := hs.size_le.lt_or_eq
  · exact ⟨_, exec_bufPush_room hroom b, by rw [pushAnswer, pushed_of_room b hroom]; rfl⟩
  · exact ⟨_, exec_bufPush_full hfull b, by rw [pushAnswer, pushed_of_full b hfull]; rfl⟩

/-- What fits of a chunk is what its first push accepts, then what fits of the rest. -/
theorem accepted_cons (hs : s.Inv) (hvalid : u.valid = s.valid ++ pushed b s) (bytes : List Byte) :
    accepted (b :: bytes) s = pushed b s ++ accepted bytes u := by
  have hsize := congrArg List.length hvalid
  rw [List.length_append, State.valid_length, State.valid_length] at hsize
  obtain hroom | hfull := hs.size_le.lt_or_eq
  · rw [pushed_of_room b hroom, List.length_singleton] at hsize
    have hroom' : Config.capacity - s.size = (Config.capacity - u.size) + 1 := by omega
    rw [accepted, hroom', List.take_succ_cons, pushed_of_room b hroom]
    rfl
  · rw [pushed_of_full b hfull, List.length_nil] at hsize
    have hnone : Config.capacity - u.size = 0 := by omega
    rw [accepted, accepted, hnone, hfull, Nat.sub_self, pushed_of_full b hfull]
    rfl

end Push

/-- What APPEND of a chunk has done from `s` to `t`. -/
structure Appended (s : State) (bytes : List Byte) (t : State) : Prop where
  inv : t.Inv
  valid : t.valid = s.valid ++ accepted bytes s
  rsp : ∃ words, t.rsp = s.rsp ++ words ∧ words.length = bytes.length ∧
    (words.map countOf).sum = (accepted bytes s).length
  uacc : t.uacc = s.uacc
  rpt : t.rpt = s.rpt
  tx : t.tx = s.tx
  cmd : t.cmd = s.cmd

theorem appended_nil {s : State} (hs : s.Inv) : Appended s [] s where
  inv := hs
  valid := by rw [accepted, List.take_nil, List.append_nil]
  rsp := ⟨[], (List.append_nil _).symm, rfl, by rw [accepted, List.take_nil]; rfl⟩
  uacc := rfl
  rpt := rfl
  tx := rfl
  cmd := rfl

theorem appended_cons {s u t : State} {b : Byte} {bytes : List Byte} (hs : s.Inv)
    (hpush : exec (.bufPush b) s = .next u) (hrsp : u.rsp = s.rsp ++ [pushAnswer b s])
    (h : Appended u bytes t) : Appended s (b :: bytes) t := by
  obtain ⟨huacc, -, -, htx, hrpt, hcmd⟩ := eachElementHasItsWriters _ s u hpush
  obtain ⟨words, hwords, hlength, hsum⟩ := h.rsp
  have hvalid := exec_bufPush_valid hs hpush
  have hcons := accepted_cons b hs hvalid bytes
  exact {
    inv := h.inv
    valid := by rw [h.valid, hvalid, hcons, List.append_assoc]
    rsp := by
      refine ⟨pushAnswer b s :: words, ?_, congrArg (· + 1) hlength, ?_⟩
      · rw [hwords, hrsp, List.append_assoc, List.singleton_append]
      · rw [List.map_cons, List.sum_cons, hsum, countOf_pushAnswer, hcons, List.length_append]
    uacc := h.uacc.trans (huacc nofun nofun nofun)
    rpt := h.rpt.trans (hrpt nofun nofun nofun)
    tx := h.tx.trans (htx nofun)
    cmd := h.cmd.trans hcmd }

/-- The pushes of APPEND all complete. -/
theorem runCommands_appendCommands {s : State} (hs : s.Inv) (bytes : List Byte) :
    ∃ t, runCommands (appendCommands bytes) s = .next t ∧ Appended s bytes t := by
  induction bytes generalizing s with
  | nil => exact ⟨s, rfl, appended_nil hs⟩
  | cons b bytes ih =>
    obtain ⟨u, hpush, hrsp⟩ := exec_bufPush_next b hs
    obtain ⟨t, hrun, happended⟩ := ih (exec_keeps_inv hs hpush)
    refine ⟨t, ?_, appended_cons hs hpush hrsp happended⟩
    rw [appendCommands, List.map_cons, runCommands, hpush, andThen_next]
    exact hrun

section AfterAppend

variable {s t : State} {bytes : List Byte}

theorem length_accepted (bytes : List Byte) (s : State) :
    (accepted bytes s).length = min bytes.length (Config.capacity - s.size) := by
  rw [accepted, List.length_take, Nat.min_comm]

theorem Appended.size (h : Appended s bytes t) : t.size = s.size + (accepted bytes s).length := by
  rw [← State.valid_length t, h.valid, List.length_append, State.valid_length]

/-- The counts of the last responses, one for each push, add up to the bytes accepted. -/
theorem Appended.count (h : Appended s bytes t) : appendedCount bytes.length t = (accepted bytes s).length := by
  obtain ⟨words, hwords, hlength, hsum⟩ := h.rsp
  have hlast : t.rsp.drop (t.rsp.length - bytes.length) = words := by
    rw [hwords, List.length_append, hlength, Nat.add_sub_cancel, List.drop_left]
  rw [appendedCount, hlast]
  exact hsum

theorem Appended.account (h : Appended s bytes t) : t.account = s.account ++ accepted bytes s :=
  account_of_appended h.rpt h.valid

end AfterAppend

/-- Settles O44: by induction over the chunk, `Appended` says what its pushes have done. -/
theorem appendAcceptsThePrefixThatFits : Obligations.AppendAcceptsThePrefixThatFits := by
  intro s bytes hs
  obtain ⟨t, hrun, h⟩ := runCommands_appendCommands hs bytes
  have hlength := length_accepted bytes s
  exact ⟨t, hrun, h.valid, h.count.trans hlength, h.size.trans (congrArg _ hlength), h.uacc, h.rpt, h.tx, h.cmd, h.inv⟩

/-! ## STEP and INGEST (R161, R162) -/

/-- STEP completes, keeps the account of bytes, and never leaves the buffer full: a confirmed frame is not empty, and a
full buffer without a frame is discarded. -/
theorem stepMacro_completes {s : State} (hs : s.Inv) :
    ∃ t, stepMacro s = .next t ∧ t.Inv ∧ t.size < Config.capacity ∧ t.account = s.account := by
  obtain ⟨hfound, hroom, hfull⟩ := stepMacroHasThreeOutcomes s hs
  obtain hno | ⟨start, stop, hfirst⟩ := noFrame_or_firstFrame s.valid
  · obtain hlt | heq := hs.size_le.lt_or_eq
    · exact ⟨_, hroom hno hlt, ⟨hs.size_le, hs.mem_wf, hs.mem_inRange⟩, hlt, rfl⟩
    · have hdrops := reportsWhatItDrops_of_discard (t := { s with
          size := 0, rpt := s.rpt ++ [⟨.noise, s.valid⟩]
          rsp := s.rsp ++ [0x02000000#32, discardedWord Config.capacity] }) hs (by rw [heq]; decide) rfl rfl
      exact ⟨_, hfull hno heq, ⟨Nat.zero_le _, hs.mem_wf, hs.mem_inRange⟩, by show 0 < Config.capacity; decide,
        hdrops.account⟩
  · obtain ⟨m, hscan, -⟩ := exec_syncScan_of_firstFrame hs hfirst
    have hpos : 0 < stop := Nat.zero_lt_of_lt hfirst.zero.1
    have hsize := hs.size_le
    refine ⟨_, (hfound start stop hfirst).trans hscan, exec_keeps_inv hs hscan, ?_,
      (reportsWhatItDrops_syncScan hs hscan).account⟩
    have hcap : 0 < Config.capacity := by decide
    show s.size - stop < Config.capacity
    omega

/-- Settles O46: APPEND completes within the invariant, and then STEP does. -/
theorem ingestNeverLeavesTheBufferFull : Obligations.IngestNeverLeavesTheBufferFull := by
  intro s bytes hs
  obtain ⟨u, hrun, happended⟩ := runCommands_appendCommands hs bytes
  obtain ⟨t, hstep, hinv, hsize, -⟩ := stepMacro_completes happended.inv
  exact ⟨t, by rw [ingest, hrun, andThen_next, hstep], hinv, hsize⟩

/-! ## The reports depend on the chunks (70_reset_and_hazards.md R227) -/

/-- The reports of an outcome that is a next state. -/
def reportsOf : Out → Option (List Report)
  | .next s => some s.rpt
  | .fault _ => none
  | .refused _ => none

theorem reportsOf_eq_some {o : Out} {reports : List Report} (h : reportsOf o = some reports) :
    ∃ t, o = .next t ∧ t.rpt = reports := by
  cases o with
  | next t => exact ⟨t, rfl, Option.some.inj h⟩
  | fault f => cases h
  | refused r => cases h

/-- The first ten bytes of V33 and V34: noise, then a frame. -/
def chunkWithInnerFrame : List Byte := [0x05#8, 0x03#8, 0x01#8, 0x03#8, 0x00#8, 0x00#8, 0x00#8, 0x0A#8, 0xC5#8, 0xCD#8]

/-- The two bytes that make the ten one frame from its start. -/
def chunkThatCompletes : List Byte := [0x34#8, 0xEC#8]

theorem reportsOf_one_chunk : reportsOf (ingest (chunkWithInnerFrame ++ chunkThatCompletes) State.reset) =
    some [⟨.frame, chunkWithInnerFrame ++ chunkThatCompletes⟩] := by
  decide +kernel

theorem reportsOf_two_chunks :
    reportsOf (andThen (ingest chunkWithInnerFrame State.reset) (ingest chunkThatCompletes)) =
      some [⟨.noise, chunkWithInnerFrame.take 2⟩, ⟨.frame, chunkWithInnerFrame.drop 2⟩] := by
  decide +kernel

/-- Settles O49: pushed whole the twelve bytes are one frame; cut after ten, an inner frame is found first. -/
theorem reportsDependOnTheChunks : Obligations.ReportsDependOnTheChunks := by
  obtain ⟨t, ht, hrpt⟩ := reportsOf_eq_some reportsOf_one_chunk
  obtain ⟨v, huv, hrpt'⟩ := reportsOf_eq_some reportsOf_two_chunks
  obtain ⟨u, hu, hv⟩ := andThen_eq_next.mp huv
  refine ⟨chunkWithInnerFrame, chunkThatCompletes, t, u, v, ht, hu, hv, ?_⟩
  rw [hrpt, hrpt']
  decide

end Sys2Proof.Proofs
end

section
/-! PROOFS of the family 'other', part 8: the reference host's read cycle as the model writes it
(44_host_macros_and_collaborators.md R164, log entry 11), and the colour registry (R169). -/

namespace Sys2Proof.Proofs

open Sys2Proof.Machine Sys2Proof.Claims Sys2Proof.Laws

/-! ## The account of the host's loop -/

/-- Every byte the host has seen: reported, held, or still in the transport. -/
def loopAccount (h : ReadLoop) : List Byte := h.core.account ++ h.pending

/-- What a host state has between two passes: the invariant, and room. -/
structure Ready (h : ReadLoop) : Prop where
  inv : h.core.Inv
  room : h.core.size < Config.capacity

/-- From `h` to `g` the host has seen these further bytes and lost none; a cycle that timed out has left the buffer
empty. -/
structure Progress (h g : ReadLoop) (arrived : List Byte) (ended : Option CycleEnd) : Prop where
  ready : Ready g
  account : loopAccount g = loopAccount h ++ arrived
  empty : ended = some .timedOut → g.core.size = 0

section Loop

variable {h g f : ReadLoop} {arrived more : List Byte} {ended : Option CycleEnd}

theorem Progress.after (hfg : Progress g f more ended) (haccount : loopAccount g = loopAccount h ++ arrived) :
    Progress h f (arrived ++ more) ended :=
  { hfg with account := by rw [hfg.account, haccount, List.append_assoc] }

/-! ## One pass -/

theorem loopAccount_receive (p : Poll) (h : ReadLoop) : loopAccount (receive p h) = loopAccount h ++ p.arrivals :=
  (List.append_assoc _ _ _).symm

/-- What is read from the transport fits, so that APPEND accepts all of it. -/
theorem drain_completes (p : Poll) (hs : h.core.Inv) :
    ∃ g, drain p h = .next g ∧ g.core.Inv ∧ loopAccount g = loopAccount h := by
  unfold drain
  split
  · exact ⟨h, rfl, hs, rfl⟩
  · obtain ⟨t, hrun, happended⟩ :=
      runCommands_appendCommands hs (h.pending.take (Config.capacity - h.core.size))
    refine ⟨_, by rw [hrun, andThen_next], happended.inv, ?_⟩
    have hall : accepted (h.pending.take (Config.capacity - h.core.size)) h.core =
        h.pending.take (Config.capacity - h.core.size) := by
      rw [accepted, List.take_take, Nat.min_self]
    rw [loopAccount, happended.account, hall, List.append_assoc, List.take_append_drop]
    rfl

/-- The flush of a timeout completes, empties the buffer and keeps the account. -/
theorem timeout_completes {s : State} (hs : s.Inv) :
    ∃ u, runCommands timeoutCommands s = .next u ∧ u.Inv ∧ u.size = 0 ∧ u.account = s.account := by
  obtain ⟨-, hflush⟩ := flushDiscardsEverything
  have hexec := hflush s hs
  exact ⟨_, (runCommands_singleton _ _).trans hexec, exec_keeps_inv hs hexec, rfl,
    (reportsWhatItDrops_syncFlush hs hexec).account⟩

theorem readPass_completes (p : Poll) (hs : h.core.Inv) :
    ∃ g ended, readPass p h = .next (g, ended) ∧ Progress h g p.arrivals ended := by
  obtain ⟨g, hdrain, hginv, hgaccount⟩ := drain_completes (h := receive p h) p hs
  obtain ⟨t, hstep, htinv, htroom, htaccount⟩ := stepMacro_completes hginv
  have haccount : t.account ++ g.pending = loopAccount h ++ p.arrivals := by
    rw [htaccount, ← loopAccount_receive, ← hgaccount, loopAccount]
  rw [readPass, hdrain, andThen_next, hstep, andThen_next]
  split
  · exact ⟨_, _, rfl, ⟨htinv, htroom⟩, haccount, nofun⟩
  · split
    · obtain ⟨u, hrun, huinv, huempty, huaccount⟩ := timeout_completes htinv
      have huroom : u.size < Config.capacity := by rw [huempty]; decide
      refine ⟨_, _, by rw [hrun, andThen_next], ⟨huinv, huroom⟩, ?_, fun _ => huempty⟩
      rw [loopAccount, huaccount]
      exact haccount
    · exact ⟨_, _, rfl, ⟨htinv, htroom⟩, haccount, nofun⟩

/-! ## READCYCLE -/

/-- The bytes that arrived in these looks. -/
def arrivals (polls : List Poll) : List Byte := (polls.map Poll.arrivals).flatten

theorem arrivals_singleton (p : Poll) : arrivals [p] = p.arrivals := by simp [arrivals]

theorem arrivals_append (ps qs : List Poll) : arrivals (ps ++ qs) = arrivals ps ++ arrivals qs := by simp [arrivals]

theorem readPasses_completes (polls : List Poll) (hready : Ready h) :
    ∃ g ended used left, readPasses polls h = .next (g, ended, left) ∧ polls = used ++ left ∧
      Progress h g (arrivals used) ended := by
  induction polls generalizing h with
  | nil => exact ⟨h, none, [], [], rfl, rfl, hready, (List.append_nil _).symm, nofun⟩
  | cons p ps ih =>
    obtain ⟨g, ended, hpass, hprogress⟩ := readPass_completes p hready.inv
    rw [readPasses, hpass, andThen_next]
    cases ended with
    | some e => exact ⟨g, some e, [p], ps, rfl, rfl, (arrivals_singleton p).symm ▸ hprogress⟩
    | none =>
      obtain ⟨f, ended, used, left, hrun, hlooks, hrest⟩ := ih hprogress.ready
      exact ⟨f, ended, p :: used, left, hrun, congrArg (p :: ·) hlooks, hrest.after hprogress.account⟩

/-- The wait uses up looks and leaves the block alone. -/
theorem waitForByte_spec (polls : List Poll) (h : ReadLoop) :
    ∃ used, polls = used ++ (waitForByte polls h).2 ∧ (waitForByte polls h).1.core = h.core ∧
      loopAccount (waitForByte polls h).1 = loopAccount h ++ arrivals used := by
  induction polls generalizing h with
  | nil => exact ⟨[], rfl, rfl, (List.append_nil _).symm⟩
  | cons p ps ih =>
    have hreceive := loopAccount_receive p h
    rw [waitForByte]
    split
    · obtain ⟨used, hlooks, hcore, haccount⟩ := ih (receive p h)
      refine ⟨p :: used, congrArg (p :: ·) hlooks, hcore, ?_⟩
      rw [haccount, hreceive, List.append_assoc]
      rfl
    · exact ⟨[p], rfl, rfl, (arrivals_singleton p).symm ▸ hreceive⟩

theorem readCycle_completes (polls : List Poll) (hready : Ready h) :
    ∃ g ended used left, readCycle polls h = .next (g, ended, left) ∧ polls = used ++ left ∧
      Progress h g (arrivals used) ended := by
  obtain ⟨waited, hwaited, hcore, haccount⟩ := waitForByte_spec polls h
  have hready' : Ready (waitForByte polls h).1 := by
    constructor <;> rw [hcore]
    · exact hready.inv
    · exact hready.room
  obtain ⟨g, ended, used, left, hrun, hlooks, hprogress⟩ := readPasses_completes (waitForByte polls h).2 hready'
  refine ⟨g, ended, waited ++ used, left, hrun, ?_, ?_⟩
  · rw [List.append_assoc, ← hlooks]
    exact hwaited
  · rw [arrivals_append]
    exact hprogress.after haccount

end Loop

/-- Settles O50: the wait, then passes, each of which loses no byte and leaves room. -/
theorem readCycleLosesNoByte : Obligations.ReadCycleLosesNoByte := by
  intro polls h hinv hroom
  obtain ⟨g, ended, used, left, hrun, hlooks, hprogress⟩ := readCycle_completes polls ⟨hinv, hroom⟩
  exact ⟨g, ended, used, left, hrun, hlooks, hprogress.account, hprogress.ready.inv, hprogress.ready.room,
    hprogress.empty⟩

/-! ## The loop over cycles -/

/-- Looks that are used up end the loop at once. -/
theorem readCycles_no_looks (n : Nat) (h : ReadLoop) : readCycles n [] h = .next (h, []) := by
  cases n <;> rfl

/-- More cycles than looks make no difference, because a finished cycle uses up a look. -/
theorem readCycles_succ {n : Nat} {polls : List Poll} (hn : polls.length ≤ n) (h : ReadLoop) :
    readCycles (n + 1) polls h = readCycles n polls h := by
  induction n generalizing polls h with
  | zero =>
    rw [List.eq_nil_of_length_eq_zero (Nat.le_zero.mp hn), readCycles_no_looks, readCycles_no_looks]
  | succ n ih =>
    rw [readCycles, readCycles]
    cases hr : readCycle polls h with
    | next r =>
      obtain ⟨g, ended, left⟩ := r
      obtain ⟨-, hleft⟩ := readCycle_looks hr
      cases ended with
      | none => rfl
      | some e =>
        have hlt := hleft nofun
        have hrest := ih (polls := left) (by omega) g
        simp only [andThen_next, hrest]
    | fault | refused => rfl

theorem readCycles_eq_readForever {n : Nat} {polls : List Poll} (hn : polls.length ≤ n) (h : ReadLoop) :
    readCycles n polls h = readForever polls h := by
  induction n, hn using Nat.le_induction with
  | base => rfl
  | succ n hn ih => rw [readCycles_succ hn, ih]

/-- Settles O51: the loop's own recursion, in which the count for the rest is no smaller than the looks left. -/
theorem readForeverRepeatsTheCycle : Obligations.ReadForeverRepeatsTheCycle := by
  intro polls h
  cases polls with
  | nil => rfl
  | cons p ps =>
    rw [readForever, List.length_cons, readCycles]
    cases hr : readCycle (p :: ps) h with
    | next r =>
      obtain ⟨g, ended, left⟩ := r
      obtain ⟨-, hleft⟩ := readCycle_looks hr
      cases ended with
      | none => rfl
      | some e =>
        have hlt := hleft nofun
        rw [List.length_cons] at hlt
        have hrest := readCycles_eq_readForever (polls := left) (Nat.le_of_lt_succ hlt) g
        simp only [andThen_next, hrest]
    | fault | refused => rfl

theorem readForever_of_ended {polls left : List Poll} {h g : ReadLoop} {e : CycleEnd}
    (hr : readCycle polls h = .next (g, some e, left)) :
    readForever polls h = andThen (readForever left g) fun q => .next (q.1, e :: q.2) := by
  rw [readForeverRepeatsTheCycle, hr]
  rfl

theorem readForever_of_unended {polls left : List Poll} {h g : ReadLoop}
    (hr : readCycle polls h = .next (g, none, left)) : readForever polls h = .next (g, []) := by
  rw [readForeverRepeatsTheCycle, hr]
  rfl

/-- The loop completes: a finished cycle leaves fewer looks, an unfinished one none. -/
theorem readForever_completes (polls : List Poll) {h : ReadLoop} (hready : Ready h) :
    ∃ g ends, readForever polls h = .next (g, ends) ∧ Progress h g (arrivals polls) none := by
  induction hn : polls.length using Nat.strong_induction_on generalizing polls h with
  | _ n ih =>
    obtain ⟨g, ended, used, left, hrun, hlooks, hprogress⟩ := readCycle_completes polls hready
    obtain ⟨hnone, hsome⟩ := readCycle_looks hrun
    cases ended with
    | none =>
      rw [hnone rfl, List.append_nil] at hlooks
      exact ⟨g, [], readForever_of_unended hrun, hlooks ▸ hprogress⟩
    | some e =>
      have hlt : left.length < n := hn ▸ hsome nofun
      obtain ⟨f, ends, hrest, hprogress'⟩ := ih left.length hlt left hprogress.ready rfl
      refine ⟨f, e :: ends, by rw [readForever_of_ended hrun, hrest, andThen_next], ?_⟩
      rw [hlooks, arrivals_append]
      exact hprogress'.after hprogress.account

/-- Settles O52: cycle after cycle, by the number of looks left. -/
theorem readForeverLosesNoByte : Obligations.ReadForeverLosesNoByte := by
  intro polls h hinv hroom
  obtain ⟨g, ends, hrun, hprogress⟩ := readForever_completes polls ⟨hinv, hroom⟩
  exact ⟨g, ends, hrun, hprogress.account, hprogress.ready.inv, hprogress.ready.room⟩

/-! ## The colour registry (R169) -/

section Colours

variable {r : Registry} {a : Byte}

theorem sight_of_seen (h : a ∈ r.seen) : r.sight a = r := if_pos (List.contains_iff_mem.mpr h)

theorem sight_of_new (h : a ∉ r.seen) : r.sight a = ⟨r.seen ++ [a]⟩ :=
  if_neg fun hseen => h (List.contains_iff_mem.mp hseen)

/-- A sighting keeps the place of an address seen before. -/
theorem idxOf_sight (h : a ∈ r.seen) (b : Byte) : (r.sight b).seen.idxOf a = r.seen.idxOf a := by
  by_cases hb : b ∈ r.seen
  · rw [sight_of_seen hb]
  · rw [sight_of_new hb]
    exact List.idxOf_append_of_mem h

theorem mem_sight (h : a ∈ r.seen) (b : Byte) : a ∈ (r.sight b).seen := by
  by_cases hb : b ∈ r.seen
  · rwa [sight_of_seen hb]
  · rw [sight_of_new hb]
    exact List.mem_append_left _ h

theorem mem_sight_self (r : Registry) (a : Byte) : a ∈ (r.sight a).seen := by
  by_cases h : a ∈ r.seen
  · exact mem_sight h a
  · rw [sight_of_new h]
    exact List.mem_append_right _ (List.mem_singleton_self a)

/-- The colour of an address seen before. -/
theorem colorFor_of_seen {γ : Type} (palette : List γ) (h : a ∈ r.seen) :
    (r.colorFor palette a).1 = palette[r.seen.idxOf a % palette.length]? := by
  rw [Registry.colorFor, idxOf_sight h]

/-- The colour of a new address. -/
theorem colorFor_of_new {γ : Type} (palette : List γ) (h : a ∉ r.seen) :
    (r.colorFor palette a).1 = palette[r.seen.length % palette.length]? := by
  have hplace : (r.seen ++ [a]).idxOf a = r.seen.length := by
    rw [List.idxOf_append_of_notMem h, List.idxOf_cons_self, Nat.add_zero]
  rw [Registry.colorFor, sight_of_new h, hplace]

end Colours

/-- Settles O53: the place of an address in the order of sighting never changes, and a new one comes last. -/
theorem colorOfAnAddressIsStable : Obligations.ColorOfAnAddressIsStable := by
  intro palette r a b
  refine ⟨fun hseen => ?_, fun hnew => ⟨colorFor_of_new palette hnew, ?_⟩⟩
  · have hafter : a ∈ (r.colorFor palette b).2.seen := mem_sight hseen b
    rw [colorFor_of_seen palette hafter, colorFor_of_seen palette hseen]
    exact congrArg (fun k => palette[k % palette.length]?) (idxOf_sight hseen b)
  · exact colorFor_of_seen palette (mem_sight_self r a)

end Sys2Proof.Proofs
end
